-- ==== Sys2Proof/Word.lean ====
section
/-! DEFINITION. The word types of FBC (spec/00_scope.md R7, R8): `b8`, `u16` and `u64`. -/

namespace Sys2Proof

/-- `b8`: an 8-bit unsigned value (R7). -/
abbrev Byte := BitVec 8

/-- `u64`: a command word (R7, R60). -/
abbrev CmdWord := BitVec 64

end Sys2Proof
end

