-- ==== Sys2Proof/Syntax.lean ====
section
/-! DEFINITION. The commands of FBC (spec/30_encoding.md R63, R64), the fault codes a command can raise
(spec/60_exceptions.md R170), and one line of assembly (R71). -/

namespace Sys2Proof

/-- The drawing mode (R66): OR, AND-NOT or XOR of one pixel bit. The fourth encoding is no mode. -/
inductive Mode where
  | set
  | clear
  | toggle
deriving DecidableEq, Repr

/-- One command, one constructor per row of spec/opcode_table.json. The operands are in the order of the source's
signatures (R63). -/
inductive Instr where
  | setPixel (x y : Byte) (mode : Mode)
  | getPixel (x y : Byte)
  | writeChar (code : Byte) (noadv : Bool)
  | scroll
  | setCursor (row column : Byte)
  | clear
  | drawLine (x0 y0 x1 y1 : Byte) (mode : Mode)
  | sendCmd (byte : Byte)
  | sendData (byte : Byte)
  | refresh
  | setBrightness (level : Byte)
  | sleep
  | wake
  | turnOff
  | turnOn
  | init
deriving DecidableEq, Repr

/-- The faults of R170, less NONE: why FBC halted. -/
inductive FaultCode where
  /-- 0x01: OPC is not in R64's table. -/
  | illegalOpcode
  /-- 0x02: a field that must be 0 is not (R65). -/
  | reservedField
  /-- 0x03: MOD[1:0] = 0b11 on SETPIXEL or DRAWLINE (R66). -/
  | illegalMode
  /-- 0x04: WRITECHAR from a cursor whose glyph would leave FB (R84). -/
  | cursorOob
  /-- 0x05: reset found no framebuffer storage (R192). -/
  | allocFail
deriving DecidableEq, Repr

/-- One line of assembly, its operands as the literals written (R71), before any check that they fit.
WRITESTRING and HOME are the two pseudo-instructions. -/
inductive AsmLine where
  | setPixel (x y : Nat) (mode : Mode)
  | getPixel (x y : Nat)
  | writeChar (code : Nat) (noadv : Bool)
  | scroll
  | setCursor (row column : Nat)
  | clear
  | drawLine (x0 y0 x1 y1 : Nat) (mode : Mode)
  | sendCmd (byte : Nat)
  | sendData (byte : Nat)
  | refresh
  | setBrightness (level : Nat)
  | sleep
  | wake
  | turnOff
  | turnOn
  | init
  | writeString (codes : List Nat)
  | home
deriving DecidableEq, Repr

end Sys2Proof
end

