-- ==== Sys2Proof/Decode.lean ====
section
/-! DEFINITION. Decoding a command word, and encoding a command (spec/30_encoding.md). `decode` is total on all 2^64
words and names the fault of every word it rejects (R70). The encoder is R72's formula. -/

namespace Sys2Proof

/-! ## Fields of the command word (R61) -/

/-- `OPC`, bits 7:0. -/
def CmdWord.opc (w : CmdWord) : Byte := w.extractLsb' 0 8

/-- `MOD`, bits 15:8. -/
def CmdWord.modifier (w : CmdWord) : Byte := w.extractLsb' 8 8

/-- `A`, bits 23:16. -/
def CmdWord.a (w : CmdWord) : Byte := w.extractLsb' 16 8

/-- `B`, bits 31:24. -/
def CmdWord.b (w : CmdWord) : Byte := w.extractLsb' 24 8

/-- `C`, bits 39:32. -/
def CmdWord.c (w : CmdWord) : Byte := w.extractLsb' 32 8

/-- `D`, bits 47:40. -/
def CmdWord.d (w : CmdWord) : Byte := w.extractLsb' 40 8

/-- `RSV`, bits 63:48. -/
def CmdWord.rsv (w : CmdWord) : BitVec 16 := w.extractLsb' 48 16

/-- R72: the word of six fields, RSV being 0. -/
def wordOfFields (opc modifier a b c d : Byte) : CmdWord :=
  (d.setWidth 64 <<< 40) ||| (c.setWidth 64 <<< 32) ||| (b.setWidth 64 <<< 24)
    ||| (a.setWidth 64 <<< 16) ||| (modifier.setWidth 64 <<< 8) ||| opc.setWidth 64

/-! ## The opcode map (R64) and the formats (R63) -/

/-- R63's formats. -/
inductive Format where
  | N
  | P
  | Q
  | L
  | G
  | K
  | Y
deriving DecidableEq, Repr

/-- The rows of R64. -/
inductive Opcode where
  | setPixel
  | getPixel
  | writeChar
  | scroll
  | setCursor
  | clear
  | drawLine
  | sendCmd
  | sendData
  | refresh
  | setBrightness
  | sleep
  | wake
  | turnOff
  | turnOn
  | init
deriving DecidableEq, Repr

/-- R64's rows in its order. -/
def opcodeRows : List Opcode :=
  [.setPixel, .getPixel, .writeChar, .scroll, .setCursor, .clear, .drawLine, .sendCmd,
    .sendData, .refresh, .setBrightness, .sleep, .wake, .turnOff, .turnOn, .init]

/-- R64's column OPC. -/
def opcodeByte : Opcode → Byte
  | .setPixel => 0x01#8
  | .getPixel => 0x02#8
  | .writeChar => 0x03#8
  | .scroll => 0x04#8
  | .setCursor => 0x05#8
  | .clear => 0x06#8
  | .drawLine => 0x10#8
  | .sendCmd => 0x20#8
  | .sendData => 0x21#8
  | .refresh => 0x22#8
  | .setBrightness => 0x23#8
  | .sleep => 0x24#8
  | .wake => 0x25#8
  | .turnOff => 0x26#8
  | .turnOn => 0x27#8
  | .init => 0x28#8

/-- R64's column format. -/
def opcodeFormat : Opcode → Format
  | .setPixel => .P
  | .getPixel => .Q
  | .writeChar => .G
  | .scroll => .N
  | .setCursor => .K
  | .clear => .N
  | .drawLine => .L
  | .sendCmd => .Y
  | .sendData => .Y
  | .refresh => .N
  | .setBrightness => .Y
  | .sleep => .N
  | .wake => .N
  | .turnOff => .N
  | .turnOn => .N
  | .init => .N

/-- The row of an OPC byte, none where R64 has none (R68). -/
def opcodeOf (byte : Byte) : Option Opcode := opcodeRows.find? fun op => opcodeByte op == byte

/-- R63, R65: every field the format does not list is 0 (RSV is checked apart, R70). -/
def formatFieldsZero (f : Format) (w : CmdWord) : Bool :=
  match f with
  | .N => w.modifier == 0#8 && w.a == 0#8 && w.b == 0#8 && w.c == 0#8 && w.d == 0#8
  | .P => w.extractLsb' 10 6 == 0#6 && w.c == 0#8 && w.d == 0#8
  | .Q => w.modifier == 0#8 && w.c == 0#8 && w.d == 0#8
  | .L => w.extractLsb' 10 6 == 0#6
  | .G => w.extractLsb' 9 7 == 0#7 && w.b == 0#8 && w.c == 0#8 && w.d == 0#8
  | .K => w.modifier == 0#8 && w.c == 0#8 && w.d == 0#8
  | .Y => w.modifier == 0#8 && w.b == 0#8 && w.c == 0#8 && w.d == 0#8

/-- R66: the mode of MOD[1:0], none for 0b11. -/
def modeOf (bits : BitVec 2) : Option Mode :=
  if bits = 0#2 then some .set
  else if bits = 1#2 then some .clear
  else if bits = 2#2 then some .toggle
  else none

/-- The command of an assigned opcode whose reserved fields are 0: none exactly where R66 names ILLEGAL_MODE. -/
def commandOf (op : Opcode) (w : CmdWord) : Option Instr :=
  match op with
  | .setPixel => (modeOf (w.extractLsb' 8 2)).map (Instr.setPixel w.a w.b)
  | .getPixel => some (.getPixel w.a w.b)
  | .writeChar => some (.writeChar w.a (w.extractLsb' 8 1 == 1#1))
  | .scroll => some .scroll
  | .setCursor => some (.setCursor w.a w.b)
  | .clear => some .clear
  | .drawLine => (modeOf (w.extractLsb' 8 2)).map (Instr.drawLine w.a w.b w.c w.d)
  | .sendCmd => some (.sendCmd w.a)
  | .sendData => some (.sendData w.a)
  | .refresh => some .refresh
  | .setBrightness => some (.setBrightness w.a)
  | .sleep => some .sleep
  | .wake => some .wake
  | .turnOff => some .turnOff
  | .turnOn => some .turnOn
  | .init => some .init

/-- R70: the checks in order, the first that fails giving the fault. -/
def decode (w : CmdWord) : Except FaultCode Instr :=
  match opcodeOf w.opc with
  | none => .error .illegalOpcode
  | some op =>
    if w.rsv ≠ 0#16 then .error .reservedField
    else if formatFieldsZero (opcodeFormat op) w = false then .error .reservedField
    else
      match commandOf op w with
      | none => .error .illegalMode
      | some i => .ok i

/-! ## The encoder (R72) -/

/-- R66's MOD byte of a mode. -/
def modeByte : Mode → Byte
  | .set => 0#8
  | .clear => 1#8
  | .toggle => 2#8

/-- R63's MOD byte of the NOADV flag. -/
def noadvByte (noadv : Bool) : Byte := if noadv then 1#8 else 0#8

/-- The row of R64 a command belongs to. -/
def opcodeOfInstr : Instr → Opcode
  | .setPixel _ _ _ => .setPixel
  | .getPixel _ _ => .getPixel
  | .writeChar _ _ => .writeChar
  | .scroll => .scroll
  | .setCursor _ _ => .setCursor
  | .clear => .clear
  | .drawLine _ _ _ _ _ => .drawLine
  | .sendCmd _ => .sendCmd
  | .sendData _ => .sendData
  | .refresh => .refresh
  | .setBrightness _ => .setBrightness
  | .sleep => .sleep
  | .wake => .wake
  | .turnOff => .turnOff
  | .turnOn => .turnOn
  | .init => .init

/-- R63, R64, R72: the word of a command. -/
def encode (i : Instr) : CmdWord :=
  let opc := opcodeByte (opcodeOfInstr i)
  match i with
  | .setPixel x y mode => wordOfFields opc (modeByte mode) x y 0#8 0#8
  | .getPixel x y => wordOfFields opc 0#8 x y 0#8 0#8
  | .writeChar code noadv => wordOfFields opc (noadvByte noadv) code 0#8 0#8 0#8
  | .scroll => wordOfFields opc 0#8 0#8 0#8 0#8 0#8
  | .setCursor row column => wordOfFields opc 0#8 row column 0#8 0#8
  | .clear => wordOfFields opc 0#8 0#8 0#8 0#8 0#8
  | .drawLine x0 y0 x1 y1 mode => wordOfFields opc (modeByte mode) x0 y0 x1 y1
  | .sendCmd byte => wordOfFields opc 0#8 byte 0#8 0#8 0#8
  | .sendData byte => wordOfFields opc 0#8 byte 0#8 0#8 0#8
  | .refresh => wordOfFields opc 0#8 0#8 0#8 0#8 0#8
  | .setBrightness level => wordOfFields opc 0#8 level 0#8 0#8 0#8
  | .sleep => wordOfFields opc 0#8 0#8 0#8 0#8 0#8
  | .wake => wordOfFields opc 0#8 0#8 0#8 0#8 0#8
  | .turnOff => wordOfFields opc 0#8 0#8 0#8 0#8 0#8
  | .turnOn => wordOfFields opc 0#8 0#8 0#8 0#8 0#8
  | .init => wordOfFields opc 0#8 0#8 0#8 0#8 0#8

/-- R170: the byte FAULT holds for a fault. -/
def faultByte : FaultCode → Byte
  | .illegalOpcode => 0x01#8
  | .reservedField => 0x02#8
  | .illegalMode => 0x03#8
  | .cursorOob => 0x04#8
  | .allocFail => 0x05#8

/-- The command word of the low `nbits` bits of `w`, every bit above them 0 (R60: one length, 64 bits, delivered whole,
so a byte order does not arise). -/
def cmdWordOfBits (nbits w : Nat) : CmdWord := BitVec.ofNat 64 (w % 2 ^ nbits)

/-- What the decoder reads from the low `nbits` bits of `w`, none where it rejects them. -/
def decodeTableWord (nbits w : Nat) : Option Instr :=
  match decode (cmdWordOfBits nbits w) with
  | .ok i => some i
  | .error _ => none

end Sys2Proof
end

