-- ==== Sys2Proof/Config.lean ====
section
/-! DEFINITION. The parameters of FBC (spec/00_scope.md R5, R6): what is fixed for a given FBC and no command
changes (spec/10_state.md R27). A `Config` is an argument of the step (spec/60_exceptions.md R187), which the state
carries (log 1). The fixed geometry is plain constants. -/

namespace Sys2Proof

/-- `W`: panel width in pixels (R2, R5). -/
abbrev panelWidth : Nat := 128

/-- `H`: panel height in pixels (R2, R5). -/
abbrev panelHeight : Nat := 64

/-- `PAGES`: 8-row bands (R5). -/
abbrev pages : Nat := 8

/-- `FBSIZE`: framebuffer bytes (R5, R6). -/
abbrev fbSize : Nat := 1024

/-- `LINE_STRIDE`: bytes per character row (R5). -/
abbrev lineStride : Nat := 128

/-- `LAST_ROW`: start offset of the last character row (R5, R6). -/
abbrev lastRow : Nat := 896

/-- `GLYPH_BYTES`: bytes per glyph (R5). -/
abbrev glyphBytes : Nat := 8

/-- `COLS`: character columns per row (R5). -/
abbrev charColumns : Nat := 16

/-- `BUS_FREQ`: the three bus clock presets (R5); no rule depends on it (spec/70_reset_and_hazards.md R202, log 14). -/
inductive BusFreq where
  | khz100
  | khz400
  | mhz1
deriving DecidableEq, Repr, Inhabited

/-- `SCROLL_CURSOR`: what a standalone SCROLL does to CURSOR (R5; spec/90_conflicts.md C2). -/
inductive ScrollCursor where
  | unchanged
  | lastRow
deriving DecidableEq, Repr

/-- The parameters of R5 that are not fixed geometry. -/
structure Config where
  /-- Bits 7:1 of `DEV_ADDR`: the device's 7-bit address. Bit 0 is the read/write bit, which is always 0 (R136), so no
  configuration holds another (`Config.devAddr`, Machine/Operands.lean). -/
  devAddr7 : BitVec 7
  /-- `CMD_DISPLAY_OFF`, sent by SLEEP and TURNOFF. -/
  cmdDisplayOff : Byte
  /-- `CMD_DISPLAY_ON`, sent by WAKE and TURNON. -/
  cmdDisplayOn : Byte
  /-- `CMD_CONTRAST`, the brightness-register selector. -/
  cmdContrast : Byte
  /-- `REFRESH_PREAMBLE`: command bytes sent before the refresh bulk write, one transaction each. -/
  refreshPreamble : List Byte
  /-- `INIT_SEQ`: OPEN, exactly 14 bytes. -/
  initSeq : Vector Byte 14
  /-- `GLYPH`: OPEN, eight bytes for each 8-bit character code. -/
  glyph : Vector (Vector Byte 8) 256
  /-- `BUS_FREQ`: OPEN. -/
  busFreq : BusFreq
  /-- `SCROLL_CURSOR`. -/
  scrollCursor : ScrollCursor
  /-- `ALLOC_MAY_FAIL`: whether reset may end in the allocation-failure halt (R192). -/
  allocMayFail : Bool
deriving DecidableEq, Repr

/-- FREE VALUE (log 2): the font of the FBC that `State.reset` describes. R5 leaves it OPEN: no claim may assume a value. -/
opaque Config.openGlyph : Vector (Vector Byte 8) 256

/-- FREE VALUE (log 2): the fourteen initialization bytes of the FBC that `State.reset` describes (R5 OPEN). -/
opaque Config.openInitSeq : Vector Byte 14

/-- FREE VALUE (log 2): the bus clock preset of the FBC that `State.reset` describes (R5 OPEN). -/
opaque Config.openBusFreq : BusFreq

/-- The defaults of R5 (log 3), over a given font, initialization sequence and clock preset. -/
def Config.withDefaults (glyph : Vector (Vector Byte 8) 256) (initSeq : Vector Byte 14) (busFreq : BusFreq) : Config where
  devAddr7 := 0x3C#7
  cmdDisplayOff := 0xAE#8
  cmdDisplayOn := 0xAF#8
  cmdContrast := 0x81#8
  refreshPreamble := [0xB0#8, 0x00#8, 0x10#8]
  initSeq := initSeq
  glyph := glyph
  busFreq := busFreq
  scrollCursor := .unchanged
  allocMayFail := false

/-- The configuration `State.reset` has: R5's defaults, and the free values where R5 says OPEN. -/
def Config.atReset : Config := Config.withDefaults Config.openGlyph Config.openInitSeq Config.openBusFreq

end Sys2Proof
end

