-- ==== Sys2Proof/Machine/State.lean ====
section
/-! DEFINITION. The state of FBC as plain data (spec/10_state.md R20 to R34), why a step can stop, and the state right
after reset (spec/70_reset_and_hazards.md R190). -/

namespace Sys2Proof.Machine

/-- The framebuffer FB as a list of address and byte pairs (R22): addresses rising, no entry equal to what an unlisted
address reads as (`Memory.wf`, Machine/Ops.lean). -/
abbrev Memory := List Host.Cell

/-- The acknowledgment of one written byte (R130). -/
inductive Ack where
  | ack
  | nack
deriving DecidableEq, Repr

/-- One event of the bus trace (spec/42_bus.md R130). -/
inductive BusEvent where
  /-- A start condition. -/
  | start
  /-- One byte written, and the acknowledgment it received. -/
  | wr (byte : Byte) (answer : Ack)
  /-- A stop condition. -/
  | stop
deriving DecidableEq, Repr

/-- The phases of the transaction state machine (R30; spec/42_bus.md R132). -/
inductive Phase where
  | idle
  | start
  | addr
  | ctrl
  | payload
  | stop
deriving DecidableEq, Repr

/-- The hidden registers of the bus engine (R30): PHASE, PIDX and ACKR. -/
structure BusEngine where
  phase : Phase
  pidx : Nat
  ackr : Ack
deriving DecidableEq, Repr

/-- The working registers of the line rasterizer (R31; spec/41_raster.md R110). They are integers: no rule depends on
a width (R113). -/
structure LineRegs where
  x : Int
  y : Int
  dx : Int
  dy : Int
  sx : Int
  sy : Int
  err : Int
deriving DecidableEq, Repr

/-- One answer of the bus oracle (spec/42_bus.md R131). -/
inductive Answer where
  | ack
  | nack
  /-- The byte never completes (spec/70_reset_and_hazards.md R199). -/
  | stall
deriving DecidableEq, Repr

/-- The oracle's answers still to come (R131, R187 `acks`): those of the list in order, then `rest` for ever (log 7). -/
structure Oracle where
  placed : List Answer
  rest : Answer
deriving DecidableEq, Repr

/-- What a reset draws freely (spec/70_reset_and_hazards.md R190, R192): the bytes of FB, CURSOR, and whether the
platform reports no framebuffer storage. -/
structure ResetDraw where
  fb : Vector Byte 1024
  cursor : BitVec 16
  allocFails : Bool
deriving DecidableEq, Repr

/-- One move of the host (spec/60_exceptions.md R180). -/
inductive HostMove where
  /-- Submit one command word. -/
  | submit (w : CmdWord)
  /-- Read a status register by its number (R28). -/
  | readStatus (number : Nat)
  /-- Assert reset between commands, with what it draws. -/
  | reset (draw : ResetDraw)
deriving DecidableEq, Repr

/-- What a port gives back to the host: the outcome of a command (spec/00_scope.md R10) or a status value (R28). -/
inductive Reply where
  | ok
  | fault (code : Byte) (w : CmdWord)
  | halted
  | status (value : BitVec 64)
deriving DecidableEq, Repr

/-- The state of FBC (R34), its hidden registers (R30, R31), and the model's own fields `cfg`, `oracle`, `port` and
`reply`, which carry the arguments and the answer of the spec's step (spec/60_exceptions.md R187; log 1, 7, 9, 11). -/
structure State where
  /-- FB (R22). -/
  fb : Memory
  /-- CURSOR (R23). -/
  cursor : BitVec 16
  /-- RESULT (R24). -/
  result : Byte
  /-- FAULT (R25). -/
  fault : Byte
  /-- FAULT_CMD (R26). -/
  faultCmd : CmdWord
  /-- TRACE (R33), in emission order. -/
  trace : List BusEvent
  /-- PHASE, PIDX, ACKR (R30). -/
  bus : BusEngine
  /-- The line registers (R31), none outside a DRAWLINE. -/
  line : Option LineRegs
  /-- The configuration (R5, R27): an argument of the step, no command changes it. -/
  cfg : Config
  /-- The bus answers still to come (R131). -/
  oracle : Oracle
  /-- The host's moves still to come, the next one first (R180). -/
  port : List HostMove
  /-- What the host was last given back (R10, R28), none since reset. -/
  reply : Option Reply
deriving DecidableEq, Repr

/-- Why a step can stop with no next state. -/
inductive Fault where
  /-- Raised by the bus commands (SENDCMD, SENDDATA, REFRESH, SETBRIGHTNESS, SLEEP, WAKE, TURNOFF, TURNON, INIT) when
  the oracle answers STALL to a byte: the command has no outcome and FBC is stuck inside it (R131, R187, R199; log 8).
  Safe: the hardware too goes no further. -/
  | busStalled
deriving DecidableEq, Repr

/-- Why a step is refused. -/
inductive Refusal where
  /-- Raised by `exec` for an instruction without a meaning. No arm raises it: every command is modelled. Safe. -/
  | notModelled (mnemonic : String)
  /-- Raised by `step` when a move waits at the port while a command still runs, which the blocking port excludes
  (spec/60_exceptions.md R180, R181; spec/93_implementation_defined.md I9; log 12). No run reaches it. Safe. -/
  | commandRunning
deriving DecidableEq, Repr

/-- The state right after reset (R190). FB and CURSOR are free draws there: this one state names the draw whose bytes
and cursor are zero (log 4, 5), and the reset move admits every other (`takeReset`, Machine/Ops.lean). -/
def State.reset : State where
  fb := []
  cursor := 0#16
  result := 0x00#8
  fault := 0x00#8
  faultCmd := 0#64
  trace := []
  bus := { phase := .idle, pidx := 0, ackr := .nack }
  line := none
  cfg := Config.atReset
  oracle := { placed := [], rest := .ack }
  port := []
  reply := none

end Sys2Proof.Machine
end

