-- ==== Sys2Proof/Machine/Flags.lean ====
section
/-! DEFINITION. What FBC reports (spec/10_state.md R24, R25, R28, R29): the values of RESULT, HALTED and BUSY, and the
status registers by number. FBC has no condition codes. -/

namespace Sys2Proof.Machine

/-- RESULT of a transaction: 0x01 when its last write was acknowledged (R24; spec/42_bus.md R133). -/
def ackResult : Ack → Byte
  | .ack => 0x01#8
  | .nack => 0x00#8

/-- RESULT of GETPIXEL: the pixel's bit (R24; spec/40_framebuffer.md R82). -/
def bitResult (bit : Bool) : Byte := if bit then 0x01#8 else 0x00#8

/-- `HALTED`: FAULT != 0 (R25). -/
def State.halted (s : State) : Bool := s.fault != 0x00#8

/-- `Idle`: no transaction is open and no line registers are live (R34; spec/60_exceptions.md R189). -/
def State.idle (s : State) : Bool := s.bus.phase == .idle && s.line == none

/-- STATUS (R28): bit 0 HALTED, bit 1 BUSY, bits 7:2 zero. BUSY is 1 while a command runs (R181). -/
def State.statusByte (s : State) : Byte :=
  (if s.halted then 0x01#8 else 0x00#8) ||| (if s.idle then 0x00#8 else 0x02#8)

/-- The status register of a number (R28), widened with zeros; RESULT's bits 7:1 read 0, and a number other than 0..4
reads 0. -/
def State.statusValue (s : State) (number : Nat) : BitVec 64 :=
  match number with
  | 0 => (s.result &&& 0x01#8).setWidth 64
  | 1 => s.fault.setWidth 64
  | 2 => s.cursor.setWidth 64
  | 3 => s.faultCmd
  | 4 => s.statusByte.setWidth 64
  | _ => 0#64

end Sys2Proof.Machine
end

