-- ==== Sys2Proof/Machine/Operands.lean ====
section
/-! DEFINITION. How operands address the framebuffer and the glyph table (spec/20_memory.md R40, R42;
spec/40_framebuffer.md R80, R83, R86), and the address and control bytes of a transaction (spec/42_bus.md R134, R136). Every operand field
is an unsigned byte, used as a number (spec/30_encoding.md R67). -/

namespace Sys2Proof

/-- `DEV_ADDR`, the address byte of every transaction (R136; spec/90_conflicts.md C1): the 7-bit address in bits 7:1, and
the read/write bit 0 (write). -/
def Config.devAddr (cfg : Config) : Byte := cfg.devAddr7.setWidth 8 <<< 1

end Sys2Proof

namespace Sys2Proof.Machine

/-- `xw = x % 128` (R83). -/
def wrapX (x : Nat) : Nat := x % panelWidth

/-- `yw = y % 64` (R83). -/
def wrapY (y : Nat) : Nat := y % panelHeight

/-- `PixAddr(x, y)` of wrapped coordinates (R40): the byte that holds a pixel. -/
def pixAddr (x y : Nat) : Nat := y / 8 * panelWidth + x

/-- `PixBit(y)` (R40): the bit of that byte. -/
def pixBit (y : Nat) : Nat := y % 8

/-- `PixelOp(v, k, mode)` (R80): OR, AND-NOT or XOR of the single bit `k`. -/
def pixelOp (v : Byte) (k : Nat) (mode : Mode) : Byte :=
  match mode with
  | .set => v ||| (1#8 <<< k)
  | .clear => v &&& ~~~(1#8 <<< k)
  | .toggle => v ^^^ (1#8 <<< k)

/-- SETCURSOR's offset, `row * 128 + column * 8` (R86), computed over the integers. -/
def cellOffset (row column : Byte) : Nat := row.toNat * lineStride + column.toNat * glyphBytes

/-- `GlyphRead(code)` (spec/00_scope.md R9): the eight bytes of the parameter GLYPH. -/
def glyphRead (cfg : Config) (code : Byte) : List Byte :=
  List.ofFn fun k : Fin glyphBytes => (cfg.glyph[code.toNat]'code.isLt)[k]

/-- The fourteen bytes of the parameter INIT_SEQ, in order (spec/42_bus.md R146). -/
def initBytes (cfg : Config) : List Byte := List.ofFn fun k : Fin 14 => cfg.initSeq[k]

/-- `Ctrl(sel)` (R134): continuation bit 0, the selector in bit 6, bits 5:0 zero. -/
def ctrlByte (data : Bool) : Byte := if data then 0x40#8 else 0x00#8

/-- `CTRL_CMD` (R134). -/
def ctrlCmd : Byte := ctrlByte false

/-- `CTRL_DATA` (R134). -/
def ctrlData : Byte := ctrlByte true

end Sys2Proof.Machine
end

