-- ==== Sys2Proof/Machine/Ops.lean ====
section
/-! DEFINITION. The named operations every meaning is written over: FB's bytes (spec/00_scope.md R9), the registers,
raising a fault (spec/60_exceptions.md R171), reset (spec/70_reset_and_hazards.md R190), and one byte on the bus
(spec/42_bus.md R130, R131). -/

namespace Sys2Proof.Machine

/-! ## FB -/

/-- What an unlisted address of FB reads as (log 4). -/
def Memory.unlisted : Byte := 0x00#8

/-- The form holds from address `lo` on: addresses rising from `lo`, inside FB, and no entry an unlisted byte. -/
def Memory.wfFrom (lo : Nat) : Memory → Bool
  | [] => true
  | (k, v) :: rest => decide (lo ≤ k) && decide (k < fbSize) && v != Memory.unlisted && Memory.wfFrom (k + 1) rest

/-- The canonical form of FB: addresses strictly rising, all below 1024, no entry equal to an unlisted byte. -/
def Memory.wf (m : Memory) : Bool := Memory.wfFrom 0 m

/-- `MemRead(addr, 1)` (R9). -/
def Memory.read : Memory → Nat → Byte
  | [], _ => Memory.unlisted
  | (k, v) :: rest, a => if k = a then v else Memory.read rest a

/-- An entry for an address, none when the byte is what an unlisted address reads as. -/
def Memory.entry (a : Nat) (v : Byte) : Memory := if v = Memory.unlisted then [] else [(a, v)]

/-- `MemWrite(addr, 1, v)` (R9), keeping the canonical form. No rule calls it outside FB. -/
def Memory.write : Memory → Nat → Byte → Memory
  | [], a, v => Memory.entry a v
  | (k, w) :: rest, a, v =>
    if k < a then (k, w) :: Memory.write rest a v
    else if k = a then Memory.entry a v ++ rest
    else Memory.entry a v ++ (k, w) :: rest

/-- Bytes written in order from an address on. -/
def Memory.writeBytes : Memory → Nat → List Byte → Memory
  | m, _, [] => m
  | m, a, b :: bs => Memory.writeBytes (Memory.write m a b) (a + 1) bs

/-- `ScrollFB()`'s memory (R85): byte `i` becomes the byte that was at `i + 128`, and the last row becomes 0. -/
def Memory.scroll (m : Memory) : Memory :=
  m.filterMap fun cell => if lineStride ≤ cell.1 ∧ cell.1 < fbSize then some (cell.1 - lineStride, cell.2) else none

/-- The bytes of FB in address order (spec/20_memory.md R44). -/
def Memory.bytes (m : Memory) : List Byte := (List.range fbSize).map (Memory.read m)

/-- FB with every byte 0x00 (R87). -/
def Memory.zeros : Memory := []

/-- The memory that holds the given bytes from address `base` on. -/
def Memory.ofBytes (base : Nat) : List Byte → Memory
  | [] => []
  | b :: bs => Memory.entry base b ++ Memory.ofBytes (base + 1) bs

/-! ## Registers -/

/-- FB replaced. -/
def State.withFb (s : State) (m : Memory) : State := { s with fb := m }

/-- `CURSOR <- v` (R23). -/
def State.withCursor (s : State) (v : BitVec 16) : State := { s with cursor := v }

/-- `RESULT <- v` (R24). -/
def State.withResult (s : State) (v : Byte) : State := { s with result := v }

/-- `FAULT <- code; FAULT_CMD <- w` (R25, R26): the two are only ever written together. -/
def State.withFault (s : State) (code : Byte) (w : CmdWord) : State := { s with fault := code, faultCmd := w }

/-- One event appended to TRACE (R33). -/
def State.emit (s : State) (e : BusEvent) : State := { s with trace := s.trace ++ [e] }

/-- The bus engine's registers replaced (R30). -/
def State.withBus (s : State) (b : BusEngine) : State := { s with bus := b }

/-- The line registers replaced (R31). -/
def State.withLine (s : State) (r : Option LineRegs) : State := { s with line := r }

/-- The oracle's answers still to come replaced (R131). -/
def State.withOracle (s : State) (o : Oracle) : State := { s with oracle := o }

/-- The host's moves still to come replaced (R180). -/
def State.withPort (s : State) (p : List HostMove) : State := { s with port := p }

/-- What the port gives back to the host (R10, R28). -/
def State.withReply (s : State) (r : Reply) : State := { s with reply := some r }

/-! ## Faults and reset -/

/-- Raising a fault (spec/60_exceptions.md R171): FAULT and FAULT_CMD are written, and nothing else. From then on FBC
is halted (R172); there is no vector, no handler and no mode to change (R175), and no return but reset (R176). -/
def raiseFault (code : FaultCode) (w : CmdWord) (s : State) : State := s.withFault (faultByte code) w

/-- FAULT after a reset (spec/70_reset_and_hazards.md R192): ALLOC_FAIL only where the parameter allows it and the draw
says so. -/
def resetFault (cfg : Config) (draw : ResetDraw) : Byte :=
  if cfg.allocMayFail && draw.allocFails then faultByte .allocFail else 0x00#8

/-- Reset (R190, R191): the only way out of a halt (R176). FB and CURSOR are the draw's; the configuration is as given;
no bus event is emitted. What the host and the bus have still to bring is not FBC's, and stays (log 13). -/
def takeReset (draw : ResetDraw) (s : State) : State where
  fb := Memory.ofBytes 0 draw.fb.toList
  cursor := draw.cursor
  result := 0x00#8
  fault := resetFault s.cfg draw
  faultCmd := 0#64
  trace := []
  bus := { phase := .idle, pidx := 0, ackr := .nack }
  line := none
  cfg := s.cfg
  oracle := s.oracle
  port := s.port
  reply := none

/-! ## One byte on the bus -/

/-- The oracle's next answer, and the answers after it (R131). -/
def nextAnswer (o : Oracle) : Answer × Oracle :=
  match o.placed with
  | [] => (o.rest, o)
  | a :: later => (a, { o with placed := later })

/-- The acknowledgment an answer gives, none for STALL (R131). -/
def answerAck : Answer → Option Ack
  | .ack => some .ack
  | .nack => some .nack
  | .stall => none

/-- `BusWrite(b)` (R9, R130, R131): one answer is drawn; `WR(b, ack)` is appended and ACKR holds `ack`. None when the
byte never completes. -/
def busWrite (b : Byte) (s : State) : Option State :=
  match answerAck (nextAnswer s.oracle).1 with
  | none => none
  | some a => some (((s.withOracle (nextAnswer s.oracle).2).emit (.wr b a)).withBus { s.bus with ackr := a })

end Sys2Proof.Machine
end

