-- ==== Sys2Proof/Machine/Bus.lean ====
section
/-! DEFINITION. The bus transaction engine and the bus commands (spec/42_bus.md). A failed acknowledgment is a result,
not a fault (R135); a byte that never completes leaves the command without an outcome (R131, R199). -/

namespace Sys2Proof.Machine

/-! ## The transaction as a procedure (R133) -/

/-- A transaction is requested and START is emitted (R132, R147: START always completes). -/
def busStart (s : State) : State := (s.emit .start).withBus { s.bus with phase := .addr }

/-- STOP is emitted, the result is the last write's acknowledgment, and the bus is released (R132, R133). -/
def busStop (s : State) : State :=
  ((s.emit .stop).withResult (ackResult s.bus.ackr)).withBus { s.bus with phase := .idle }

/-- R133's loop: payload bytes are written until one is not acknowledged. PIDX counts those written. -/
def sendPayload : List Byte → State → Option State
  | [], s => some s
  | b :: bs, s =>
    match busWrite b s with
    | none => none
    | some t =>
      match t.bus.ackr with
      | .ack => sendPayload bs (t.withBus { t.bus with pidx := t.bus.pidx + 1 })
      | .nack => some (t.withBus { t.bus with pidx := t.bus.pidx + 1 })

/-- R133 from the control byte on: it is written, and the payload after it if it was acknowledged. -/
def sendCtrl (ctrl : Byte) (payload : List Byte) (s : State) : Option State :=
  match busWrite ctrl s with
  | none => none
  | some t =>
    match t.bus.ackr with
    | .ack => sendPayload payload (t.withBus { t.bus with phase := .payload, pidx := 0 })
    | .nack => some t

/-- R133 from the address byte on: it is written, and the rest after it if it was acknowledged. -/
def sendAddr (ctrl : Byte) (payload : List Byte) (s : State) : Option State :=
  match busWrite s.cfg.devAddr s with
  | none => none
  | some t =>
    match t.bus.ackr with
    | .ack => sendCtrl ctrl payload (t.withBus { t.bus with phase := .ctrl })
    | .nack => some t

/-- `BusTxn(ctrl, payload)` (R133). None when some byte never completes. STOP is always issued otherwise. -/
def busTxn (ctrl : Byte) (payload : List Byte) (s : State) : Option State :=
  (sendAddr ctrl payload (busStart s)).map busStop

/-- One single-item command transaction per byte, in order, each to completion whatever the earlier results (R137). -/
def commandTxns : List Byte → State → Option State
  | [], s => some s
  | c :: cs, s =>
    match busTxn ctrlCmd [c] s with
    | none => none
    | some t => commandTxns cs t

/-! ## The transaction as a state machine (R132) -/

/-- Where a write leads: on if it was acknowledged, else to STOP (R132). -/
def phaseAfter (onAck : Phase) (s : State) : Phase :=
  match s.bus.ackr with
  | .ack => onAck
  | .nack => .stop

/-- One row of R132's table: the action of the current phase, and the next phase. None when a byte never completes. -/
def enginePhase (ctrl : Byte) (payload : List Byte) (s : State) : Option State :=
  match s.bus.phase with
  | .idle => some s
  | .start => some ((s.emit .start).withBus { s.bus with phase := .addr })
  | .addr => (busWrite s.cfg.devAddr s).map fun t => t.withBus { t.bus with phase := phaseAfter .ctrl t }
  | .ctrl =>
    (busWrite ctrl s).map fun t =>
      match t.bus.ackr with
      | .ack => t.withBus { t.bus with phase := .payload, pidx := 0 }
      | .nack => t.withBus { t.bus with phase := .stop }
  | .payload =>
    match payload[s.bus.pidx]? with
    | none => some (s.withBus { s.bus with phase := .stop })
    | some b =>
      (busWrite b s).map fun t =>
        t.withBus { t.bus with
          pidx := t.bus.pidx + 1
          phase := if t.bus.pidx + 1 < payload.length then phaseAfter .payload t else .stop }
  | .stop => some (((s.emit .stop).withResult (ackResult s.bus.ackr)).withBus { s.bus with phase := .idle })

/-- `n` rows of the table, from the current phase on. -/
def engineRun (ctrl : Byte) (payload : List Byte) : Nat → State → Option State
  | 0, s => some s
  | n + 1, s =>
    match enginePhase ctrl payload s with
    | none => none
    | some t => engineRun ctrl payload n t

/-- R132's IDLE row: a transaction is requested. -/
def requestTxn (s : State) : State := s.withBus { s.bus with phase := .start }

/-! ## The commands -/

/-- The outcome of a bus command (spec/60_exceptions.md R187): stuck when a byte never completes (log 8). -/
def busOutcome : Option State → Host.Outcome State Fault Refusal
  | none => .fault .busStalled
  | some t => .next t

/-- SENDCMD (R138). -/
def execSendCmd (byte : Byte) (s : State) : Host.Outcome State Fault Refusal :=
  busOutcome (busTxn ctrlCmd [byte] s)

/-- SENDDATA (R139). -/
def execSendData (byte : Byte) (s : State) : Host.Outcome State Fault Refusal :=
  busOutcome (busTxn ctrlData [byte] s)

/-- REFRESH (R140): the preamble, one transaction a byte, then FB as it stands when REFRESH begins, in one. -/
def execRefresh (s : State) : Host.Outcome State Fault Refusal :=
  busOutcome ((commandTxns s.cfg.refreshPreamble s).bind (busTxn ctrlData s.fb.bytes))

/-- SETBRIGHTNESS (R141): the selector and the level, both as command bytes. -/
def execSetBrightness (level : Byte) (s : State) : Host.Outcome State Fault Refusal :=
  busOutcome (commandTxns [s.cfg.cmdContrast, level] s)

/-- SLEEP (R142). -/
def execSleep (s : State) : Host.Outcome State Fault Refusal :=
  busOutcome (busTxn ctrlCmd [s.cfg.cmdDisplayOff] s)

/-- WAKE (R143). -/
def execWake (s : State) : Host.Outcome State Fault Refusal :=
  busOutcome (busTxn ctrlCmd [s.cfg.cmdDisplayOn] s)

/-- TURNOFF (R144, R149): the same bytes as SLEEP, its own command. -/
def execTurnOff (s : State) : Host.Outcome State Fault Refusal :=
  busOutcome (busTxn ctrlCmd [s.cfg.cmdDisplayOff] s)

/-- TURNON (R145, R149): the same bytes as WAKE, its own command. -/
def execTurnOn (s : State) : Host.Outcome State Fault Refusal :=
  busOutcome (busTxn ctrlCmd [s.cfg.cmdDisplayOn] s)

/-- INIT (R146): the fourteen bytes in one transaction. -/
def execInit (s : State) : Host.Outcome State Fault Refusal :=
  busOutcome (busTxn ctrlCmd (initBytes s.cfg) s)

end Sys2Proof.Machine
end

