-- ==== Sys2Proof/Machine/Framebuffer.lean ====
section
/-! DEFINITION. The framebuffer commands (spec/40_framebuffer.md). None of them emits a bus event. -/

namespace Sys2Proof.Machine

/-- The address of the one byte `Plot(x, y, _)` writes (R83). -/
def plotAddr (x y : Nat) : Nat := pixAddr (wrapX x) (wrapY y)

/-- `Plot(x, y, mode)` (R83): the pixel after wrap, in its one byte of FB. -/
def plot (x y : Nat) (mode : Mode) (s : State) : State :=
  s.withFb (s.fb.write (plotAddr x y) (pixelOp (s.fb.read (plotAddr x y)) (pixBit (wrapY y)) mode))

/-- The bit of the pixel after wrap (R40, R82). -/
def pixelBit (x y : Nat) (s : State) : Bool := (s.fb.read (plotAddr x y)).getLsbD (pixBit (wrapY y))

/-- `ScrollFB()` (R85): the framebuffer part of a scroll. -/
def scrollFb (s : State) : State := s.withFb s.fb.scroll

/-- R84's bound: a cursor other than 1024 from which some glyph byte would lie outside FB. -/
def cursorOob (c : BitVec 16) : Bool := decide (c.toNat ≠ fbSize) && decide (fbSize ≤ c.toNat + 7)

/-- R84's scroll test, before the write: exactly at 1024, FB scrolls and CURSOR becomes 896. -/
def scrollAtEnd (s : State) : State :=
  if s.cursor.toNat = fbSize then (scrollFb s).withCursor (BitVec.ofNat 16 lastRow) else s

/-- R84's copy: the eight bytes of the glyph, over what was there, from CURSOR on. -/
def putGlyph (code : Byte) (s : State) : State :=
  s.withFb (s.fb.writeBytes s.cursor.toNat (glyphRead s.cfg code))

/-- R84's advance, which NOADV suppresses. -/
def advanceCursor (noadv : Bool) (s : State) : State :=
  if noadv then s else s.withCursor (s.cursor + 8#16)

/-- SETPIXEL (R81). -/
def execSetPixel (x y : Byte) (mode : Mode) (s : State) : Host.Outcome State Fault Refusal :=
  .next (plot x.toNat y.toNat mode s)

/-- GETPIXEL (R82). -/
def execGetPixel (x y : Byte) (s : State) : Host.Outcome State Fault Refusal :=
  .next (s.withResult (bitResult (pixelBit x.toNat y.toNat s)))

/-- WRITECHAR (R84). The bound is checked before anything is written (spec/60_exceptions.md R174); the word FAULT_CMD
holds is the command's own (log 15). -/
def execWriteChar (code : Byte) (noadv : Bool) (s : State) : Host.Outcome State Fault Refusal :=
  .next (if cursorOob s.cursor then raiseFault .cursorOob (encode (.writeChar code noadv)) s
    else advanceCursor noadv (putGlyph code (scrollAtEnd s)))

/-- SCROLL (R85; spec/90_conflicts.md C2): CURSOR is written only when SCROLL_CURSOR = LastRow. -/
def execScroll (s : State) : Host.Outcome State Fault Refusal :=
  .next (match s.cfg.scrollCursor with
    | .unchanged => scrollFb s
    | .lastRow => (scrollFb s).withCursor (BitVec.ofNat 16 lastRow))

/-- SETCURSOR (R86): no check, for any operands. -/
def execSetCursor (row column : Byte) (s : State) : Host.Outcome State Fault Refusal :=
  .next (s.withCursor (BitVec.ofNat 16 (cellOffset row column)))

/-- CLEAR (R87). -/
def execClear (s : State) : Host.Outcome State Fault Refusal :=
  .next ((s.withFb Memory.zeros).withCursor 0#16)

end Sys2Proof.Machine
end

