-- ==== Sys2Proof/Machine/Raster.lean ====
section
/-! DEFINITION. The line rasterizer (spec/41_raster.md): integer Bresenham over the registers of R110. -/

namespace Sys2Proof.Machine

/-- A step sign (R110): +1 when the first coordinate is the smaller, else -1. -/
def stepSign (a b : Int) : Int := if a < b then 1 else -1

/-- The set-up of R110. -/
def lineSetup (x0 y0 x1 y1 : Int) : LineRegs where
  x := x0
  y := y0
  dx := |x1 - x0|
  dy := -|y1 - y0|
  sx := stepSign x0 x1
  sy := stepSign y0 y1
  err := |x1 - x0| + -|y1 - y0|

/-- R111's first test and update, with `e2` computed beforehand. -/
def stepX (e2 : Int) (r : LineRegs) : LineRegs :=
  if e2 ≥ r.dy then { r with err := r.err + r.dy, x := r.x + r.sx } else r

/-- R111's second test and update, with the same `e2`. -/
def stepY (e2 : Int) (r : LineRegs) : LineRegs :=
  if e2 ≤ r.dx then { r with err := r.err + r.dx, y := r.y + r.sy } else r

/-- The registers after one iteration that does not leave the loop (R111). -/
def lineNext (r : LineRegs) : LineRegs := stepY (2 * r.err) (stepX (2 * r.err) r)

/-- The loop of R111 from the registers in `line`: plot, leave at the endpoint, else step. `n` bounds the iterations;
at the endpoint the registers are gone (R31). -/
def rasterize (x1 y1 : Int) (mode : Mode) : Nat → State → State
  | 0, s => s
  | n + 1, s =>
    match s.line with
    | none => s
    | some r =>
      if r.x = x1 ∧ r.y = y1 then (plot r.x.toNat r.y.toNat mode s).withLine none
      else rasterize x1 y1 mode n ((plot r.x.toNat r.y.toNat mode s).withLine (some (lineNext r)))

/-- More iterations than any line of 8-bit coordinates takes: each makes a step, and dx + |dy| is at most 510
(R112; log 16). -/
def lineFuel : Nat := 512

/-- The points one DRAWLINE plots, in order and before wrap (R111, R112): what the loop visits from the registers `r`. -/
def linePoints (x1 y1 : Int) : Nat → LineRegs → List (Int × Int)
  | 0, _ => []
  | n + 1, r => (r.x, r.y) :: if r.x = x1 ∧ r.y = y1 then [] else linePoints x1 y1 n (lineNext r)

/-- The points of `DRAWLINE x0, y0, x1, y1` (R112). -/
def linePointsOf (x0 y0 x1 y1 : Byte) : List (Int × Int) :=
  linePoints x1.toNat y1.toNat lineFuel (lineSetup x0.toNat y0.toNat x1.toNat y1.toNat)

/-- DRAWLINE (R111): set up, run the loop, and leave no line register behind (R31). -/
def execDrawLine (x0 y0 x1 y1 : Byte) (mode : Mode) (s : State) : Host.Outcome State Fault Refusal :=
  .next ((rasterize x1.toNat y1.toNat mode lineFuel
    (s.withLine (some (lineSetup x0.toNat y0.toNat x1.toNat y1.toNat)))).withLine none)

end Sys2Proof.Machine
end

