-- ==== Sys2Proof/Machine/Dispatch.lean ====
section
/-! DEFINITION. The meaning of every command, one arm per constructor. -/

namespace Sys2Proof.Machine

/-- One command executed completely (spec/00_scope.md R4), after decode and outside a halt. -/
def exec (i : Instr) (s : State) : Host.Outcome State Fault Refusal :=
  match i with
  | .setPixel x y mode => Sys2Proof.Machine.execSetPixel x y mode s
  | .getPixel x y => Sys2Proof.Machine.execGetPixel x y s
  | .writeChar code noadv => Sys2Proof.Machine.execWriteChar code noadv s
  | .scroll => Sys2Proof.Machine.execScroll s
  | .setCursor row column => Sys2Proof.Machine.execSetCursor row column s
  | .clear => Sys2Proof.Machine.execClear s
  | .drawLine x0 y0 x1 y1 mode => Sys2Proof.Machine.execDrawLine x0 y0 x1 y1 mode s
  | .sendCmd byte => Sys2Proof.Machine.execSendCmd byte s
  | .sendData byte => Sys2Proof.Machine.execSendData byte s
  | .refresh => Sys2Proof.Machine.execRefresh s
  | .setBrightness level => Sys2Proof.Machine.execSetBrightness level s
  | .sleep => Sys2Proof.Machine.execSleep s
  | .wake => Sys2Proof.Machine.execWake s
  | .turnOff => Sys2Proof.Machine.execTurnOff s
  | .turnOn => Sys2Proof.Machine.execTurnOn s
  | .init => Sys2Proof.Machine.execInit s

end Sys2Proof.Machine
end

