-- ==== Sys2Proof/Machine/Port.lean ====
section
/-! DEFINITION. The host's port (spec/60_exceptions.md R180, R181, R187): one move of the host served. -/

namespace Sys2Proof.Machine

/-- The outcome the host is given after a command has completed (spec/00_scope.md R10): Fault with the code and the
word when FAULT is not 0, else Ok. -/
def answerOutcome (s : State) : State :=
  s.withReply (if s.halted then .fault s.fault s.faultCmd else .ok)

/-- What a command's outcome becomes when the port has returned: the outcome is given back to the host. -/
def returnOutcome : Host.Outcome State Fault Refusal → Host.Outcome State Fault Refusal
  | .next t => .next (answerOutcome t)
  | .fault r => .fault r
  | .refused r => .refused r

/-- A submitted word (R187): Halted while FBC is halted, neither decoded nor executed (R172); a fault when it does not
decode (R171); else the command it decodes to. -/
def submitWord (w : CmdWord) (s : State) : Host.Outcome State Fault Refusal :=
  if s.halted then .next (s.withReply .halted)
  else
    match decode w with
    | .error code => .next (answerOutcome (raiseFault code w s))
    | .ok i => returnOutcome (exec i s)

/-- One move of the host (R180). -/
def serveMove (move : HostMove) (s : State) : Host.Outcome State Fault Refusal :=
  match move with
  | .submit w => submitWord w s
  | .readStatus number => .next (s.withReply (.status (s.statusValue number)))
  | .reset draw => .next (takeReset draw s)

/-- The host's next move, if it has one: taken off the port and served when no command runs (R181). With no move
waiting, FBC does nothing (log 9). -/
def serveNext (s : State) : Host.Outcome State Fault Refusal :=
  match s.port with
  | [] => .next s
  | move :: later => if s.idle then serveMove move (s.withPort later) else .refused .commandRunning

/-- The state with a word submitted ahead of every other move. -/
def submitFirst (w : CmdWord) (s : State) : State := s.withPort (.submit w :: s.port)

end Sys2Proof.Machine
end

