-- ==== Sys2Proof/Machine/Step.lean ====
section
/-! DEFINITION. One step (spec/00_scope.md R4): one move of the host, served whole. -/

namespace Sys2Proof.Machine

/-- One step of FBC. -/
def step (s : State) : Host.Outcome State Fault Refusal := serveNext s

/-- `s` with the command word of the low `nbits` bits of `w` submitted as the host's next move (log 10). -/
def State.withFetchWord (s : State) (nbits w : Nat) : State := submitFirst (cmdWordOfBits nbits w) s

end Sys2Proof.Machine
end

