-- ==== Sys2Proof/WellFormed.lean ====
section
/-! DEFINITION. Well-formedness. The one check FBC's syntax has is R71's (spec/30_encoding.md): every operand must fit
in 8 bits, and a literal that does not fit is refused, not wrapped. A command's operands are bytes and its mode is one
of three names, so every command passes the check; an assembly line may fail it. -/

namespace Sys2Proof

/-- R71: a literal fits an operand field. -/
def fitsByte (n : Nat) : Bool := n < 256

/-- R71, R88: every operand of the line fits in 8 bits. -/
def AsmLine.wellFormed : AsmLine → Bool
  | .setPixel x y _ => fitsByte x && fitsByte y
  | .getPixel x y => fitsByte x && fitsByte y
  | .writeChar code _ => fitsByte code
  | .scroll => true
  | .setCursor row column => fitsByte row && fitsByte column
  | .clear => true
  | .drawLine x0 y0 x1 y1 _ => fitsByte x0 && fitsByte y0 && fitsByte x1 && fitsByte y1
  | .sendCmd byte => fitsByte byte
  | .sendData byte => fitsByte byte
  | .refresh => true
  | .setBrightness level => fitsByte level
  | .sleep => true
  | .wake => true
  | .turnOff => true
  | .turnOn => true
  | .init => true
  | .writeString codes => codes.all fitsByte
  | .home => true

/-- The line that writes a command (R71). -/
def Instr.toAsm : Instr → AsmLine
  | .setPixel x y mode => .setPixel x.toNat y.toNat mode
  | .getPixel x y => .getPixel x.toNat y.toNat
  | .writeChar code noadv => .writeChar code.toNat noadv
  | .scroll => .scroll
  | .setCursor row column => .setCursor row.toNat column.toNat
  | .clear => .clear
  | .drawLine x0 y0 x1 y1 mode => .drawLine x0.toNat y0.toNat x1.toNat y1.toNat mode
  | .sendCmd byte => .sendCmd byte.toNat
  | .sendData byte => .sendData byte.toNat
  | .refresh => .refresh
  | .setBrightness level => .setBrightness level.toNat
  | .sleep => .sleep
  | .wake => .wake
  | .turnOff => .turnOff
  | .turnOn => .turnOn
  | .init => .init

/-- A command is well formed when the line that writes it is. -/
def Instr.wellFormed (i : Instr) : Bool := i.toAsm.wellFormed

end Sys2Proof
end

