-- ==== Sys2Proof/Machine/Assembler.lean ====
section
/-! DEFINITION. The assembler (spec/30_encoding.md R71; spec/40_framebuffer.md R88): from the characters of a line to
the command words it stands for. FBC never sees a line; the host's words come from it. -/

namespace Sys2Proof.Machine

/-! ## From a line to commands -/

/-- The commands of a line that R71 accepts: one, or those a pseudo-instruction expands to. None when an operand does
not fit in 8 bits: it is refused, not wrapped. -/
def assembleLine (line : AsmLine) : Option (List Instr) :=
  if line.wellFormed then
    match line with
    | .setPixel x y mode => some [.setPixel (BitVec.ofNat 8 x) (BitVec.ofNat 8 y) mode]
    | .getPixel x y => some [.getPixel (BitVec.ofNat 8 x) (BitVec.ofNat 8 y)]
    | .writeChar code noadv => some [.writeChar (BitVec.ofNat 8 code) noadv]
    | .scroll => some [.scroll]
    | .setCursor row column => some [.setCursor (BitVec.ofNat 8 row) (BitVec.ofNat 8 column)]
    | .clear => some [.clear]
    | .drawLine x0 y0 x1 y1 mode =>
      some [.drawLine (BitVec.ofNat 8 x0) (BitVec.ofNat 8 y0) (BitVec.ofNat 8 x1) (BitVec.ofNat 8 y1) mode]
    | .sendCmd byte => some [.sendCmd (BitVec.ofNat 8 byte)]
    | .sendData byte => some [.sendData (BitVec.ofNat 8 byte)]
    | .refresh => some [.refresh]
    | .setBrightness level => some [.setBrightness (BitVec.ofNat 8 level)]
    | .sleep => some [.sleep]
    | .wake => some [.wake]
    | .turnOff => some [.turnOff]
    | .turnOn => some [.turnOn]
    | .init => some [.init]
    | .writeString codes => some (codes.map fun c => .writeChar (BitVec.ofNat 8 c) false)
    | .home => some [.setCursor 0#8 0#8]
  else none

/-! ## From characters to a line -/

/-- A token of a line. -/
inductive Token where
  | word (cs : List Char)
  | number (n : Nat)
  | char (c : Char)
  | string (cs : List Char)
  | comma
deriving DecidableEq, Repr

/-- Where the lexer stands; the characters of an unfinished token are held last first. -/
inductive LexState where
  | gap
  | inWord (acc : List Char)
  | inString (acc : List Char)
  | quoteOpen
  | quoteChar (c : Char)
deriving DecidableEq, Repr

/-- The value of a digit in a base up to sixteen. -/
def digitValue (base : Nat) (c : Char) : Option Nat :=
  let n := c.toNat
  let v := if 48 ≤ n ∧ n ≤ 57 then n - 48
    else if 65 ≤ n ∧ n ≤ 70 then n - 55
    else if 97 ≤ n ∧ n ≤ 102 then n - 87
    else base
  if v < base then some v else none

/-- The number a non-empty run of digits writes. -/
def digitsValue (base : Nat) : Nat → List Char → Option Nat
  | acc, [] => some acc
  | acc, c :: cs =>
    match digitValue base c with
    | none => none
    | some v => digitsValue base (acc * base + v) cs

/-- A decimal or `0x` hexadecimal literal (R71), or a word that does not begin with a digit. -/
def tokenOfWord (cs : List Char) : Option Token :=
  match cs with
  | [] => none
  | '0' :: 'x' :: d :: ds => (digitsValue 16 0 (d :: ds)).map .number
  | c :: rest =>
    match digitValue 10 c with
    | some _ => (digitsValue 10 0 (c :: rest)).map .number
    | none => some (.word (c :: rest))

/-- The tokens of a line. A semicolon outside quotes starts a comment (R71).

DESIGN CHOICE (log 22): R71 and R88 give no escape, so there is none. A string is every character up to the next double
quote, as it stands, a backslash and a semicolon too; a double quote cannot be one of its characters. A character literal
is one character, whichever it is, between two single quotes, so three single quotes write the single quote itself. -/
def lexLine : LexState → List Char → Option (List Token)
  | .gap, [] => some []
  | .gap, c :: cs =>
    if c = ';' then some []
    else if c = ' ' ∨ c = '\t' then lexLine .gap cs
    else if c = ',' then (lexLine .gap cs).map (.comma :: ·)
    else if c = '"' then lexLine (.inString []) cs
    else if c = '\'' then lexLine .quoteOpen cs
    else lexLine (.inWord [c]) cs
  | .inWord acc, [] => (tokenOfWord acc.reverse).map ([·])
  | .inWord acc, c :: cs =>
    if c = ';' then (tokenOfWord acc.reverse).map ([·])
    else if c = ' ' ∨ c = '\t' then
      match tokenOfWord acc.reverse, lexLine .gap cs with
      | some t, some ts => some (t :: ts)
      | _, _ => none
    else if c = ',' then
      match tokenOfWord acc.reverse, lexLine .gap cs with
      | some t, some ts => some (t :: .comma :: ts)
      | _, _ => none
    else if c = '"' ∨ c = '\'' then none
    else lexLine (.inWord (c :: acc)) cs
  | .inString _, [] => none
  | .inString acc, c :: cs =>
    if c = '"' then (lexLine .gap cs).map (.string acc.reverse :: ·) else lexLine (.inString (c :: acc)) cs
  | .quoteOpen, [] => none
  | .quoteOpen, c :: cs => lexLine (.quoteChar c) cs
  | .quoteChar _, [] => none
  | .quoteChar c, q :: cs => if q = '\'' then (lexLine .gap cs).map (.char c :: ·) else none

/-- The operands of a line, commas between them. -/
def operandsOf : List Token → Option (List Token)
  | [] => some []
  | [.comma] => none
  | [t] => some [t]
  | t :: .comma :: u :: rest => if t = .comma then none else (operandsOf (u :: rest)).map (t :: ·)
  | _ => none

/-- R71's mode names. -/
def modeOfWord (cs : List Char) : Option Mode :=
  if cs = ['S', 'E', 'T'] then some .set
  else if cs = ['C', 'L', 'E', 'A', 'R'] then some .clear
  else if cs = ['T', 'O', 'G', 'G', 'L', 'E'] then some .toggle
  else none

/-- The ASCII code of a character, none when it has none (R71; log 17). -/
def asciiCode (c : Char) : Option Nat := if c.toNat < 128 then some c.toNat else none

/-- The ASCII codes of a string's characters (R71, R88). -/
def asciiCodes : List Char → Option (List Nat)
  | [] => some []
  | c :: cs =>
    match asciiCode c, asciiCodes cs with
    | some n, some ns => some (n :: ns)
    | _, _ => none

/-- The names of R71's table and of its two pseudo-instructions. -/
inductive AsmName where
  | setPixel
  | getPixel
  | writeChar
  | scroll
  | setCursor
  | clear
  | drawLine
  | sendCmd
  | sendData
  | refresh
  | setBrightness
  | sleep
  | wake
  | turnOff
  | turnOn
  | init
  | writeString
  | home
deriving DecidableEq, Repr

/-- R71: the mnemonics are the source's operation names in upper case. -/
def asmNames : List (List Char × AsmName) :=
  [
   (['S', 'E', 'T', 'P', 'I', 'X', 'E', 'L'], .setPixel),
   (['G', 'E', 'T', 'P', 'I', 'X', 'E', 'L'], .getPixel),
   (['W', 'R', 'I', 'T', 'E', 'C', 'H', 'A', 'R'], .writeChar),
   (['S', 'C', 'R', 'O', 'L', 'L'], .scroll),
   (['S', 'E', 'T', 'C', 'U', 'R', 'S', 'O', 'R'], .setCursor),
   (['C', 'L', 'E', 'A', 'R'], .clear),
   (['D', 'R', 'A', 'W', 'L', 'I', 'N', 'E'], .drawLine),
   (['S', 'E', 'N', 'D', 'C', 'M', 'D'], .sendCmd),
   (['S', 'E', 'N', 'D', 'D', 'A', 'T', 'A'], .sendData),
   (['R', 'E', 'F', 'R', 'E', 'S', 'H'], .refresh),
   (['S', 'E', 'T', 'B', 'R', 'I', 'G', 'H', 'T', 'N', 'E', 'S', 'S'], .setBrightness),
   (['S', 'L', 'E', 'E', 'P'], .sleep),
   (['W', 'A', 'K', 'E'], .wake),
   (['T', 'U', 'R', 'N', 'O', 'F', 'F'], .turnOff),
   (['T', 'U', 'R', 'N', 'O', 'N'], .turnOn),
   (['I', 'N', 'I', 'T'], .init),
   (['W', 'R', 'I', 'T', 'E', 'S', 'T', 'R', 'I', 'N', 'G'], .writeString),
   (['H', 'O', 'M', 'E'], .home)]

/-- The code operand of WRITECHAR: a number or a character (R71). -/
def codeOperand : Token → Option Nat
  | .number n => some n
  | .char c => asciiCode c
  | _ => none

/-- R71's syntax: a name and its operands. -/
def lineOf (name : AsmName) (operands : List Token) : Option AsmLine :=
  match name, operands with
  | .setPixel, [.number x, .number y, .word m] => (modeOfWord m).map (.setPixel x y)
  | .getPixel, [.number x, .number y] => some (.getPixel x y)
  | .writeChar, [t] => (codeOperand t).map (.writeChar · false)
  | .writeChar, [t, .word w] => if w = ['N', 'O', 'A', 'D', 'V'] then (codeOperand t).map (.writeChar · true) else none
  | .scroll, [] => some .scroll
  | .setCursor, [.number row, .number column] => some (.setCursor row column)
  | .clear, [] => some .clear
  | .drawLine, [.number x0, .number y0, .number x1, .number y1, .word m] => (modeOfWord m).map (.drawLine x0 y0 x1 y1)
  | .sendCmd, [.number b] => some (.sendCmd b)
  | .sendData, [.number b] => some (.sendData b)
  | .refresh, [] => some .refresh
  | .setBrightness, [.number level] => some (.setBrightness level)
  | .sleep, [] => some .sleep
  | .wake, [] => some .wake
  | .turnOff, [] => some .turnOff
  | .turnOn, [] => some .turnOn
  | .init, [] => some .init
  | .writeString, [.string cs] => (asciiCodes cs).map .writeString
  | .home, [] => some .home
  | _, _ => none

/-- The commands of one line of text: none when R71 does not accept it, the empty list when it is blank or a comment. -/
def assembleChars (cs : List Char) : Option (List Instr) :=
  match lexLine .gap cs with
  | some [] => some []
  | some (.word w :: rest) =>
    match asmNames.lookup w, operandsOf rest with
    | some name, some operands => (lineOf name operands).bind assembleLine
    | _, _ => none
  | _ => none

/-- The command words of a list of lines, in order. -/
def assembleProgram : List (List Char) → Option (List CmdWord)
  | [] => some []
  | line :: later =>
    match assembleChars line, assembleProgram later with
    | some cmds, some ws => some (cmds.map encode ++ ws)
    | _, _ => none

end Sys2Proof.Machine
end

