-- ==== Sys2Proof/Machine/History.lean ====
section
/-! DEFINITION. What the program itself has written since the last reset (spec/60_exceptions.md R189: the premises
FbDefined and CursorDefined; spec/70_reset_and_hazards.md R193). It is a record of a run, not state of FBC: no step reads
it (log 23). -/

namespace Sys2Proof.Machine

/-- What the program has given since the last reset: of FB the bits that are 1 in `fb`, and whether CURSOR. -/
structure Given where
  fb : Memory
  cursor : Bool
deriving DecidableEq, Repr

/-- Right after a reset: FB and CURSOR are the reset's draws (R190). -/
def Given.nothing : Given := { fb := Memory.zeros, cursor := false }

/-- All of FB given. -/
@[irreducible] def giveAll : Memory := Memory.ofBytes 0 (List.replicate fbSize 0xFF#8)

/-- Bytes of FB given whole, `n` of them from an address on. -/
@[irreducible] def giveBytes (m : Memory) (a n : Nat) : Memory := m.writeBytes a (List.replicate n 0xFF#8)

/-- `Plot` gives its one bit (R80, R83), unless it only inverts what was there (R193: SETPIXEL changes one bit of an
unknown byte). -/
def givePlot (x y : Nat) (mode : Mode) (m : Memory) : Memory :=
  match mode with
  | .set | .clear => m.write (plotAddr x y) (pixelOp (m.read (plotAddr x y)) (pixBit (wrapY y)) .set)
  | .toggle => m

/-- `ScrollFB` (R85): what was given moves with its byte, and the last row is given. -/
def giveScroll (m : Memory) : Memory := giveBytes m.scroll lastRow lineStride

/-- What WRITECHAR gives (R84): nothing when it faults, else what its scroll and its eight bytes give. -/
def giveGlyph (s : State) (m : Memory) : Memory :=
  if cursorOob s.cursor then m
  else giveBytes (if s.cursor.toNat = fbSize then giveScroll m else m) (scrollAtEnd s).cursor.toNat glyphBytes

/-- What is given after a command executed from `s`. CURSOR is given by CLEAR and SETCURSOR; a SCROLL that writes it
(SCROLL_CURSOR = LastRow) is not WRITECHAR's advance, and takes it back (R189; log 23). -/
def Given.afterCommand (g : Given) (i : Instr) (s : State) : Given :=
  match i with
  | .setPixel x y mode => { g with fb := givePlot x.toNat y.toNat mode g.fb }
  | .getPixel _ _ => g
  | .writeChar _ _ => { g with fb := giveGlyph s g.fb }
  | .scroll => { fb := giveScroll g.fb, cursor := g.cursor && s.cfg.scrollCursor == .unchanged }
  | .setCursor _ _ => { g with cursor := true }
  | .clear => { fb := giveAll, cursor := true }
  | .drawLine x0 y0 x1 y1 mode =>
    { g with fb := (linePointsOf x0 y0 x1 y1).foldl (fun m p => givePlot p.1.toNat p.2.toNat mode m) g.fb }
  | .sendCmd _ => g
  | .sendData _ => g
  | .refresh => g
  | .setBrightness _ => g
  | .sleep => g
  | .wake => g
  | .turnOff => g
  | .turnOn => g
  | .init => g

/-- What is given after one step from `s`: a reset takes all of it back; a word counts when FBC is not halted (R172) and
the word decodes. -/
def Given.afterStep (g : Given) (s : State) : Given :=
  match s.port with
  | [] => g
  | .reset _ :: _ => Given.nothing
  | .readStatus _ :: _ => g
  | .submit w :: _ =>
    if s.halted then g
    else
      match decode w with
      | .error _ => g
      | .ok i => g.afterCommand i s

/-- What is given after `n` steps from `s`, of which `g` was given before. -/
def givenFrom : Nat → State → Given → Given
  | 0, _, g => g
  | n + 1, s, g =>
    match step s with
    | .next t => givenFrom n t (g.afterStep s)
    | .fault _ => g
    | .refused _ => g

/-- What the program has given in `n` steps from `s`, nothing of what came before counting. -/
def givenAfter (n : Nat) (s : State) : Given := givenFrom n s Given.nothing

end Sys2Proof.Machine
end

