-- ==== Sys2Proof/Safety.lean ====
section
/-! DEFINITION. The terms claims use: the launch premises (spec/60_exceptions.md R189), a run and its success (R188),
the well-framed transaction and trace (spec/42_bus.md R147, R148), and the invariant of the machine. -/

namespace Sys2Proof.Machine

/-! ## Launch premises (R189) -/

/-- `NoFault`: FAULT = 0. -/
abbrev State.NoFault (s : State) : Prop := s.fault = 0x00#8

/-- `Idle`: no command is running. -/
abbrev State.Idle (s : State) : Prop := s.idle = true

/-- `CursorInRange`: WRITECHAR does not fault (spec/40_framebuffer.md R84). -/
abbrev State.CursorInRange (s : State) : Prop :=
  (s.cursor.toNat ≤ 1016 ∧ s.cursor.toNat % 8 = 0) ∨ s.cursor.toNat = 1024

/-- `AllAck`: every answer still to come is ACK. -/
abbrev Oracle.AllAck (o : Oracle) : Prop := (∀ a ∈ o.placed, a = .ack) ∧ o.rest = .ack

/-- `NoStall`: no answer still to come is STALL. -/
abbrev Oracle.NoStall (o : Oracle) : Prop := (∀ a ∈ o.placed, a ≠ .stall) ∧ o.rest ≠ .stall

/-- `DefaultCfg`: the parameters of R5 with a default take it. -/
abbrev DefaultCfg (cfg : Config) : Prop := cfg = Config.withDefaults cfg.glyph cfg.initSeq cfg.busFreq

/-- DEV_ADDR is an address byte in the write direction: its read/write bit is 0 (spec/42_bus.md R136). Every
configuration's is (`writeAddress`, Laws/Ops.lean). -/
abbrev WriteAddress (cfg : Config) : Prop := cfg.devAddr.getLsbD 0 = false

/-! ## Runs (R188) -/

/-- `n` steps, stopping where a step stops. -/
def runSteps (n : Nat) (s : State) : Host.Outcome State Fault Refusal := Host.Core.run Sys2Proof.core n s

/-- The run of a list of command words after a reset with a draw (R188): the reset, then each word submitted. -/
def runAfterReset (draw : ResetDraw) (words : List CmdWord) (s : State) : Host.Outcome State Fault Refusal :=
  runSteps (words.length + 1) (s.withPort (.reset draw :: words.map .submit))

/-- A run is successful when it ends (no word was answered STALL) in a state with FAULT = 0 (R188). -/
def Successful (out : Host.Outcome State Fault Refusal) : Prop := ∃ t, out = .next t ∧ t.NoFault

/-! ## The premises on what the program has written (R189)

They are premises on a state and what has happened since its last reset. FBC holds no record of that, so they take the
run that leads to the state: `n` steps from a state `s`, of which only what follows the last reset counts (log 23). -/

/-- `FbDefined` of the state `n` steps after `s`: in those steps, and since the last reset among them, the program has
itself given every byte of FB its value, by CLEAR or by writes. -/
abbrev FbDefined (n : Nat) (s : State) : Prop := ∀ a, a < fbSize → (givenAfter n s).fb.read a = 0xFF#8

/-- `CursorDefined` of the state `n` steps after `s`: in those steps, and since the last reset among them, CURSOR has been
written by CLEAR or SETCURSOR, and then advanced only by WRITECHAR. -/
abbrev CursorDefined (n : Nat) (s : State) : Prop := (givenAfter n s).cursor = true

/-- FB after a reset and a list of words is the same for every draw of the reset (R189: what a claim about FB needs where
`FbDefined` is not assumed; spec/70_reset_and_hazards.md R193). -/
def SameFbForEveryDraw (words : List CmdWord) : Prop :=
  ∀ (s t t' : State) (d d' : ResetDraw), d.allocFails = false → d'.allocFails = false →
    runAfterReset d words s = .next t → runAfterReset d' words s = .next t' → t.fb = t'.fb

/-- CURSOR after a reset and a list of words is the same for every draw of the reset. -/
def SameCursorForEveryDraw (words : List CmdWord) : Prop :=
  ∀ (s t t' : State) (d d' : ResetDraw), d.allocFails = false → d'.allocFails = false →
    runAfterReset d words s = .next t → runAfterReset d' words s = .next t' → t.cursor = t'.cursor

/-! ## Commands in sequence, and the opcode table -/

/-- Commands executed one after another, as the host submits them, stopping where one stops. -/
def execAll : List Instr → State → Host.Outcome State Fault Refusal
  | [], s => .next s
  | i :: later, s =>
    match exec i s with
    | .next t => execAll later t
    | .fault r => .fault r
    | .refused r => .refused r

/-- The columns match and mask of spec/opcode_table.json, row by row, and whether the row's word has a MODE field. -/
def opcodeTable : List (CmdWord × CmdWord × Bool) :=
  [(0x0000000000000001#64, 0xFFFFFFFF0000FCFF#64, true),
   (0x0000000000000002#64, 0xFFFFFFFF0000FFFF#64, false),
   (0x0000000000000003#64, 0xFFFFFFFFFF00FEFF#64, false),
   (0x0000000000000004#64, 0xFFFFFFFFFFFFFFFF#64, false),
   (0x0000000000000005#64, 0xFFFFFFFF0000FFFF#64, false),
   (0x0000000000000006#64, 0xFFFFFFFFFFFFFFFF#64, false),
   (0x0000000000000010#64, 0xFFFF00000000FCFF#64, true),
   (0x0000000000000020#64, 0xFFFFFFFFFF00FFFF#64, false),
   (0x0000000000000021#64, 0xFFFFFFFFFF00FFFF#64, false),
   (0x0000000000000022#64, 0xFFFFFFFFFFFFFFFF#64, false),
   (0x0000000000000023#64, 0xFFFFFFFFFF00FFFF#64, false),
   (0x0000000000000024#64, 0xFFFFFFFFFFFFFFFF#64, false),
   (0x0000000000000025#64, 0xFFFFFFFFFFFFFFFF#64, false),
   (0x0000000000000026#64, 0xFFFFFFFFFFFFFFFF#64, false),
   (0x0000000000000027#64, 0xFFFFFFFFFFFFFFFF#64, false),
   (0x0000000000000028#64, 0xFFFFFFFFFFFFFFFF#64, false)]

/-- MODE, bits 9:8 of a word (spec/30_encoding.md R63). -/
def modeField (w : CmdWord) : BitVec 2 := w.extractLsb' 8 2

/-! ## Transactions (spec/42_bus.md R133, R148) -/

/-- The events of one transaction over the bytes it would write (address, control byte, payload) with the result `r`:
START, a number of bytes each acknowledged but the last, whose answer is `r`, and STOP; all of them when `r` is ACK. -/
def IsTxn (bytes : List Byte) (r : Ack) (evs : List BusEvent) : Prop :=
  ∃ sent last unsent, bytes = sent ++ last :: unsent ∧ (r = .ack → unsent = []) ∧
    evs = .start :: (sent.map (.wr · .ack) ++ [.wr last r, .stop])

/-- The events of transactions one after another, the last with the result `r`. -/
inductive AreTxns : List (List Byte) → Ack → List BusEvent → Prop where
  | one {bytes : List Byte} {r : Ack} {evs : List BusEvent} (h : IsTxn bytes r evs) : AreTxns [bytes] r evs
  | cons {bytes : List Byte} {others : List (List Byte)} {r r' : Ack} {evs evs' : List BusEvent}
      (h : IsTxn bytes r' evs) (later : AreTxns others r evs') : AreTxns (bytes :: others) r (evs ++ evs')

/-- The bytes of each transaction of a bus command (R138 to R146), in order; none for the other commands. -/
def txnsOf (i : Instr) (s : State) : List (List Byte) :=
  let dev := s.cfg.devAddr
  match i with
  | .setPixel _ _ _ => []
  | .getPixel _ _ => []
  | .writeChar _ _ => []
  | .scroll => []
  | .setCursor _ _ => []
  | .clear => []
  | .drawLine _ _ _ _ _ => []
  | .sendCmd byte => [[dev, 0x00#8, byte]]
  | .sendData byte => [[dev, 0x40#8, byte]]
  | .refresh => s.cfg.refreshPreamble.map (fun c => [dev, 0x00#8, c]) ++ [dev :: 0x40#8 :: s.fb.bytes]
  | .setBrightness level => [[dev, 0x00#8, s.cfg.cmdContrast], [dev, 0x00#8, level]]
  | .sleep => [[dev, 0x00#8, s.cfg.cmdDisplayOff]]
  | .wake => [[dev, 0x00#8, s.cfg.cmdDisplayOn]]
  | .turnOff => [[dev, 0x00#8, s.cfg.cmdDisplayOff]]
  | .turnOn => [[dev, 0x00#8, s.cfg.cmdDisplayOn]]
  | .init => [dev :: 0x00#8 :: initBytes s.cfg]

/-- The commands of spec/42_bus.md. -/
def isBusCommand (i : Instr) : Bool :=
  match opcodeOfInstr i with
  | .setPixel | .getPixel | .writeChar | .scroll | .setCursor | .clear | .drawLine => false
  | .sendCmd | .sendData | .refresh | .setBrightness | .sleep | .wake | .turnOff | .turnOn | .init => true

/-- A transaction in which every byte is acknowledged. -/
def ackedTxn (bytes : List Byte) : List BusEvent := .start :: (bytes.map (.wr · .ack) ++ [.stop])

/-- How many bytes a list of events writes. -/
def writesIn (evs : List BusEvent) : Nat :=
  evs.countP fun e =>
    match e with
    | .start => false
    | .wr _ _ => true
    | .stop => false

/-- The answer to the `n`th byte still to be written, counted from 0 (R131). -/
def Oracle.answerAt (o : Oracle) (n : Nat) : Answer := o.placed.getD n o.rest

/-- The answers left after `n` bytes (R131, R187): the first `n` still to come are gone. -/
def Oracle.dropAnswers (o : Oracle) (n : Nat) : Oracle := { o with placed := o.placed.drop n }

/-- What no bus command changes: FB, CURSOR, FAULT, FAULT_CMD (R135, R140), the line registers, the configuration, and
the host's side of the port. -/
structure BusFrame (s t : State) : Prop where
  fb : t.fb = s.fb
  cursor : t.cursor = s.cursor
  fault : t.fault = s.fault
  faultCmd : t.faultCmd = s.faultCmd
  line : t.line = s.line
  cfg : t.cfg = s.cfg
  port : t.port = s.port
  reply : t.reply = s.reply

/-! ## The trace as a whole (R147, R148) -/

/-- Where a reader of the trace stands. -/
inductive FrameState where
  /-- No transaction is open. -/
  | closed
  /-- START was seen: the address byte must follow. -/
  | opened
  /-- The last byte was acknowledged: another byte or STOP may follow. -/
  | acked
  /-- The last byte was not acknowledged: STOP must follow. -/
  | nacked
deriving DecidableEq, Repr

/-- Where the reader stands after an event, none when the event breaks the framing. -/
def frameStep (dev : Byte) : FrameState → BusEvent → Option FrameState
  | .closed, .start => some .opened
  | .opened, .wr b a => if b = dev then some (match a with | .ack => .acked | .nack => .nacked) else none
  | .acked, .wr _ a => some (match a with | .ack => .acked | .nack => .nacked)
  | .acked, .stop => some .closed
  | .nacked, .stop => some .closed
  | .closed, .wr _ _ => none
  | .closed, .stop => none
  | .opened, .start => none
  | .opened, .stop => none
  | .acked, .start => none
  | .nacked, .start => none
  | .nacked, .wr _ _ => none

/-- Where the reader stands after a list of events. -/
def frameScan (dev : Byte) : FrameState → List BusEvent → Option FrameState
  | st, [] => some st
  | st, e :: es =>
    match frameStep dev st e with
    | none => none
    | some st' => frameScan dev st' es

/-- Every START is matched by one STOP, the first byte of a transaction is DEV_ADDR, every byte but a transaction's
last was acknowledged, and no transaction is open at the end (R136, R147, R148). -/
def framed (dev : Byte) (evs : List BusEvent) : Bool := frameScan dev .closed evs == some .closed

/-! ## The invariant -/

/-- What holds of every state a run reaches: FB is canonical (R22, log 4), RESULT is 0 or 1 (R24), FAULT holds a code of
R170 and FAULT_CMD is 0 when FAULT is 0 or ALLOC_FAIL (R26), ALLOC_FAIL only where the parameter allows it (R192), no
command is running (R34), and PIDX is a payload index (R30). -/
structure State.Inv (s : State) : Prop where
  fbCanonical : s.fb.wf = true
  resultBit : s.result = 0x00#8 ∨ s.result = 0x01#8
  faultCode : s.fault.toNat ≤ 5
  faultCmdZero : s.fault = 0x00#8 ∨ s.fault = 0x05#8 → s.faultCmd = 0#64
  allocAllowed : s.fault = 0x05#8 → s.cfg.allocMayFail = true
  idle : s.Idle
  payloadIndex : s.bus.pidx ≤ 1024

end Sys2Proof.Machine
end

