-- ==== Sys2Proof/Certificates/Slice0/Obligations.lean ====
section
/-! DEFINITION. The statements for the provers. Each docstring says which rule of spec/ it formalises. "Everything else
is unchanged" is said by writing the next state as an update of the old one: all of memory, every register, the trace,
the bus engine, the line registers, the configuration, the oracle and the port then read as before, unless named. -/

open Sys2Proof Sys2Proof.Machine

/-! ## Encoding (spec/30_encoding.md) -/

/-- The words of R72's examples and of the vectors V-ENC (spec/95_test_vectors.md), at least one for every family:
what each decodes to. -/
def Obligations.SpecWordsDecode : Prop :=
  decode 0x0000000009030201#64 = .ok (.setPixel 3#8 9#8 .toggle) ∧
  decode 0x0000000000010002#64 = .ok (.getPixel 1#8 0#8) ∧
  decode 0x0000000000410103#64 = .ok (.writeChar 0x41#8 true) ∧
  decode 0x000000000F070005#64 = .ok (.setCursor 7#8 15#8) ∧
  decode 0x0000030700000010#64 = .ok (.drawLine 0#8 0#8 7#8 3#8 .set) ∧
  decode 0x0000000000AE0020#64 = .ok (.sendCmd 0xAE#8) ∧
  decode 0x0000000000000022#64 = .ok .refresh ∧
  decode 0x0000000000000000#64 = .error .illegalOpcode ∧
  decode 0x0001000000000000#64 = .error .illegalOpcode ∧
  decode 0x0000000000000401#64 = .error .reservedField ∧
  decode 0x0000010000000001#64 = .error .reservedField ∧
  decode 0x0001000000000301#64 = .error .reservedField ∧
  decode 0x0000000000000301#64 = .error .illegalMode ∧
  decode 0x0000000000000310#64 = .error .illegalMode

/-- R61, R72: the fields of a word stand side by side, so the word as a number is their weighted sum; RSV is 0. -/
def Obligations.EncodedWordIsTheWeightedSum : Prop :=
  ∀ opc modifier a b c d : Byte,
    (wordOfFields opc modifier a b c d).toNat =
      d.toNat * 2 ^ 40 + c.toNat * 2 ^ 32 + b.toNat * 2 ^ 24 + a.toNat * 2 ^ 16 + modifier.toNat * 2 ^ 8 + opc.toNat

/-- R63, R64, R66, R70, R72: every command, at every operand value, decodes from its own word. -/
def Obligations.DecodeAfterEncode : Prop :=
  ∀ i : Instr, i.wellFormed = true → decode (encode i) = .ok i

/-- R63, R65, R70: a word that decodes is the one word of its command, so no bit of it is ignored. -/
def Obligations.EncodeAfterDecode : Prop :=
  ∀ (w : CmdWord) (i : Instr), decode w = .ok i → encode i = w

/-- R68: which OPC bytes are unassigned, that they raise ILLEGAL_OPCODE, and its code. -/
def Obligations.UnassignedOpcodesAreIllegal : Prop :=
  faultByte .illegalOpcode = 0x01#8 ∧
  ∀ w : CmdWord, decode w = .error .illegalOpcode ↔
    w.opc.toNat = 0x00 ∨ (0x07 ≤ w.opc.toNat ∧ w.opc.toNat ≤ 0x0F) ∨ (0x11 ≤ w.opc.toNat ∧ w.opc.toNat ≤ 0x1F) ∨
      0x29 ≤ w.opc.toNat

/-- R70 (with R65, R66) against the match and mask columns of spec/opcode_table.json: ILLEGAL_OPCODE exactly when the
OPC byte is no row's; else RESERVED_FIELD exactly when the OPC byte is a row's and a
masked bit differs; else ILLEGAL_MODE exactly when the row has a mode and it is 0b11; else the word decodes. -/
def Obligations.DecodeFollowsTheOpcodeTable : Prop :=
  ∀ w : CmdWord,
    (decode w = .error .illegalOpcode ↔ ∀ row ∈ opcodeTable, w.opc ≠ row.1.opc) ∧
    (decode w = .error .reservedField ↔
      ∃ row ∈ opcodeTable, w.opc = row.1.opc ∧ w &&& row.2.1 ≠ row.1) ∧
    (decode w = .error .illegalMode ↔
      ∃ row ∈ opcodeTable, w &&& row.2.1 = row.1 ∧ row.2.2 = true ∧ modeField w = 3#2) ∧
    ((∃ i, decode w = .ok i) ↔
      ∃ row ∈ opcodeTable, w &&& row.2.1 = row.1 ∧ ¬(row.2.2 = true ∧ modeField w = 3#2))

/-- R71, R88: the assembler accepts a line exactly when every operand fits in 8 bits; the line that writes a command
gives that command; WRITESTRING gives one advancing WRITECHAR a character, in order, and HOME gives SETCURSOR 0, 0. -/
def Obligations.AssemblerAcceptsExactlyBytes : Prop :=
  (∀ line : AsmLine, (assembleLine line).isSome = true ↔ line.wellFormed = true) ∧
  (∀ i : Instr, assembleLine i.toAsm = some [i]) ∧
  (∀ codes : List Byte, assembleLine (.writeString (codes.map (·.toNat))) = some (codes.map (.writeChar · false))) ∧
  assembleLine .home = some [.setCursor 0#8 0#8]

/-! ## Framebuffer (spec/20_memory.md, spec/40_framebuffer.md) -/

/-- R80: OR, AND-NOT, XOR of the single bit `k`; bits other than `k` are unchanged, and bit `k` follows the table. -/
def Obligations.PixelOpFollowsTheTruthTable : Prop :=
  ∀ (v : Byte) (k j : Nat) (mode : Mode), k < 8 → j < 8 →
    pixelOp v k mode = (match mode with
      | .set => v ||| (1#8 <<< k)
      | .clear => v &&& ~~~(1#8 <<< k)
      | .toggle => v ^^^ (1#8 <<< k)) ∧
    (pixelOp v k mode).getLsbD j =
      if j = k then (match mode with
        | .set => true
        | .clear => false
        | .toggle => !v.getLsbD j)
      else v.getLsbD j

/-- R40: the pixel map is a bijection between the 128 × 64 pixels and the bits of the 1024 bytes, and a pixel is read
through it after wrap. -/
def Obligations.PixelMapIsABijection : Prop :=
  (∀ x y, x < 128 → y < 64 → pixAddr x y = y / 8 * 128 + x ∧ pixAddr x y < 1024 ∧ pixBit y = y % 8 ∧ pixBit y < 8) ∧
  (∀ x y x' y', x < 128 → y < 64 → x' < 128 → y' < 64 →
    pixAddr x y = pixAddr x' y' → pixBit y = pixBit y' → x = x' ∧ y = y') ∧
  (∀ a k, a < 1024 → k < 8 → ∃ x y, x < 128 ∧ y < 64 ∧ pixAddr x y = a ∧ pixBit y = k) ∧
  (∀ x y s, pixelBit x y s = (s.fb.read (pixAddr (x % 128) (y % 64))).getLsbD (pixBit (y % 64)))

/-- R81, R83: SETPIXEL completes for every operand, and changes one byte of FB, by PixelOp, at the wrapped pixel's
address; every other byte of FB, and everything else, is unchanged. Its word is of format P. -/
def Obligations.SetPixelChangesOneByte : Prop :=
  (∀ (x y : Byte) (mode : Mode), encode (.setPixel x y mode) =
    wordOfFields 0x01#8 (match mode with
      | .set => 0x00#8
      | .clear => 0x01#8
      | .toggle => 0x02#8) x y 0#8 0#8) ∧
  ∀ (x y : Byte) (mode : Mode) (s : State), s.fb.wf = true →
    ∃ m, exec (.setPixel x y mode) s = .next (s.withFb m) ∧ m.wf = true ∧
      m.read (y.toNat % 64 / 8 * 128 + x.toNat % 128) =
        pixelOp (s.fb.read (y.toNat % 64 / 8 * 128 + x.toNat % 128)) (y.toNat % 64 % 8) mode ∧
      ∀ a, a ≠ y.toNat % 64 / 8 * 128 + x.toNat % 128 → m.read a = s.fb.read a

/-- R82: GETPIXEL completes for every operand; RESULT becomes the wrapped pixel's bit, and everything else, every byte
of FB among it, is unchanged. Its word is of format Q. -/
def Obligations.GetPixelReturnsTheBit : Prop :=
  ∀ (x y : Byte) (s : State),
    encode (.getPixel x y) = wordOfFields 0x02#8 0#8 x y 0#8 0#8 ∧
    exec (.getPixel x y) s = .next (s.withResult
      (if (s.fb.read (y.toNat % 64 / 8 * 128 + x.toNat % 128)).getLsbD (y.toNat % 64 % 8) then 0x01#8 else 0x00#8))

/-- R89 law 1 and W10: after SETPIXEL, GETPIXEL of the same coordinates gives 1 for Set, 0 for Clear, and the opposite
of the old bit for Toggle; FB is otherwise as SETPIXEL left it. -/
def Obligations.GetAfterSetReadsTheMode : Prop :=
  ∀ (x y : Byte) (mode : Mode) (s : State), s.fb.wf = true →
    ∃ m v, execAll [.setPixel x y mode, .getPixel x y] s = .next ((s.withFb m).withResult v) ∧
      exec (.setPixel x y mode) s = .next (s.withFb m) ∧
      v = (match mode with
        | .set => 0x01#8
        | .clear => 0x00#8
        | .toggle => if pixelBit x.toNat y.toNat s then 0x00#8 else 0x01#8)

/-- R89 law 2: coordinates wrap by 128 and 64, for SETPIXEL and for GETPIXEL. -/
def Obligations.PixelCoordinatesWrap : Prop :=
  ∀ (x y : Byte) (mode : Mode) (s : State),
    exec (.setPixel x y mode) s = exec (.setPixel (x % 128#8) (y % 64#8) mode) s ∧
    exec (.getPixel x y) s = exec (.getPixel (x % 128#8) (y % 64#8)) s

/-- R89 law 3: two Toggles of one pixel restore the whole state. -/
def Obligations.ToggleTwiceRestores : Prop :=
  ∀ (x y : Byte) (s : State), s.fb.wf = true →
    execAll [.setPixel x y .toggle, .setPixel x y .toggle] s = .next s

/-- R89 law 5: SETPIXELs at pixels that differ after wrap commute; Set and Clear are idempotent. -/
def Obligations.PlotsCommuteAndSettle : Prop :=
  ∀ (x y x' y' : Byte) (mode mode' : Mode) (s : State), s.fb.wf = true →
    (x.toNat % 128 ≠ x'.toNat % 128 ∨ y.toNat % 64 ≠ y'.toNat % 64 →
      execAll [.setPixel x y mode, .setPixel x' y' mode'] s = execAll [.setPixel x' y' mode', .setPixel x y mode] s) ∧
    (mode ≠ .toggle → execAll [.setPixel x y mode, .setPixel x y mode] s = exec (.setPixel x y mode) s)

/-- R84: WRITECHAR. From a cursor other than 1024 and above 1016 it raises CURSOR_OOB and changes nothing else; at 1024
it scrolls first and writes the glyph at 896; from any other cursor it writes the glyph there. CURSOR advances by 8
unless NOADV. Its word is of format G. -/
def Obligations.WriteCharFollowsItsRule : Prop :=
  ∀ (code : Byte) (noadv : Bool) (s : State),
    encode (.writeChar code noadv) = wordOfFields 0x03#8 (if noadv then 0x01#8 else 0x00#8) code 0#8 0#8 0#8 ∧
    (s.cursor.toNat ≠ 1024 → 1016 < s.cursor.toNat →
      exec (.writeChar code noadv) s = .next (s.withFault 0x04#8 (encode (.writeChar code noadv)))) ∧
    (s.fb.wf = true → s.cursor.toNat = 1024 →
      ∃ m, exec (.writeChar code noadv) s =
          .next ((s.withFb m).withCursor (if noadv then 896#16 else 904#16)) ∧ m.wf = true ∧
        (∀ a, a < 896 → m.read a = s.fb.read (a + 128)) ∧
        (∀ k : Fin 8, m.read (896 + k.val) = (s.cfg.glyph[code.toNat]'code.isLt)[k]) ∧
        ∀ a, 904 ≤ a → a < 1024 → m.read a = 0x00#8) ∧
    (s.fb.wf = true → s.cursor.toNat ≤ 1016 →
      ∃ m, exec (.writeChar code noadv) s =
          .next ((s.withFb m).withCursor (if noadv then s.cursor else s.cursor + 8#16)) ∧ m.wf = true ∧
        (∀ k : Fin 8, m.read (s.cursor.toNat + k.val) = (s.cfg.glyph[code.toNat]'code.isLt)[k]) ∧
        ∀ a, a < s.cursor.toNat ∨ s.cursor.toNat + 8 ≤ a → m.read a = s.fb.read a)

/-- R84's precondition (R189 CursorInRange): from a cursor in range WRITECHAR completes with no fault raised, and leaves
the cursor in range. -/
def Obligations.WriteCharKeepsTheCursorInRange : Prop :=
  ∀ (code : Byte) (noadv : Bool) (s : State), s.CursorInRange →
    ∃ t, exec (.writeChar code noadv) s = .next t ∧ t.CursorInRange ∧ t.fault = s.fault ∧ t.faultCmd = s.faultCmd

/-- R89 law 6: two WRITECHARs from a cell that is not the last of FB fill two cells with no gap or overlap. -/
def Obligations.TwoGlyphsLeaveNoGap : Prop :=
  ∀ (a b : Byte) (s : State), s.fb.wf = true → s.cursor.toNat % 8 = 0 → s.cursor.toNat ≤ 1008 →
    ∃ m, execAll [.writeChar a false, .writeChar b false] s = .next ((s.withFb m).withCursor (s.cursor + 16#16)) ∧
      (∀ k : Fin 8, m.read (s.cursor.toNat + k.val) = (s.cfg.glyph[a.toNat]'a.isLt)[k]) ∧
      (∀ k : Fin 8, m.read (s.cursor.toNat + 8 + k.val) = (s.cfg.glyph[b.toNat]'b.isLt)[k]) ∧
      ∀ j, j < s.cursor.toNat ∨ s.cursor.toNat + 16 ≤ j → m.read j = s.fb.read j

/-- R88: WRITESTRING from a cursor in range runs every WRITECHAR it expands to, and raises no fault. -/
def Obligations.WriteStringRunsToItsEnd : Prop :=
  ∀ (codes : List Byte) (s : State), s.CursorInRange →
    ∃ t, execAll (codes.map (.writeChar · false)) s = .next t ∧ t.CursorInRange ∧ t.fault = s.fault ∧
      t.faultCmd = s.faultCmd ∧ t.trace = s.trace ∧ t.result = s.result

/-- R85, C2: SCROLL completes; every byte of FB becomes the byte 128 further on, and the last row 0; CURSOR is written
only when SCROLL_CURSOR = LastRow; everything else is unchanged; eight SCROLLs clear FB. Its word is of format N. -/
def Obligations.ScrollMovesEveryRowUp : Prop :=
  encode .scroll = wordOfFields 0x04#8 0#8 0#8 0#8 0#8 0#8 ∧
  ∀ s : State, s.fb.wf = true →
    ∃ m, exec .scroll s = .next (match s.cfg.scrollCursor with
        | .unchanged => s.withFb m
        | .lastRow => (s.withFb m).withCursor 896#16) ∧ m.wf = true ∧
      (∀ i, i < 896 → m.read i = s.fb.read (i + 128)) ∧ (∀ i, 896 ≤ i → i < 1024 → m.read i = 0x00#8) ∧
      ∃ t, execAll (List.replicate 8 .scroll) s = .next t ∧ ∀ a, t.fb.read a = 0x00#8

/-- R86: SETCURSOR completes for every operand; CURSOR becomes row * 128 + column * 8, which always fits; everything
else is unchanged. Its word is of format K. -/
def Obligations.SetCursorComputesTheOffset : Prop :=
  ∀ (row column : Byte) (s : State),
    encode (.setCursor row column) = wordOfFields 0x05#8 0#8 row column 0#8 0#8 ∧
    ∃ v : BitVec 16, v.toNat = row.toNat * 128 + column.toNat * 8 ∧
      exec (.setCursor row column) s = .next (s.withCursor v)

/-- R87: CLEAR completes; every byte of FB and CURSOR become 0; everything else is unchanged. Its word is of format N. -/
def Obligations.ClearZeroesFbAndCursor : Prop :=
  encode .clear = wordOfFields 0x06#8 0#8 0#8 0#8 0#8 0#8 ∧
  ∀ s : State, ∃ m, exec .clear s = .next ((s.withFb m).withCursor 0#16) ∧ m.wf = true ∧ ∀ a, m.read a = 0x00#8

/-- R193, R189 (FbDefined, CursorDefined): whatever came before it, a CLEAR that is executed establishes both premises;
and after a reset and a CLEAR, FB and CURSOR are the same whatever the reset drew. -/
def Obligations.ClearDefinesFbAndCursor : Prop :=
  (∀ (n : Nat) (s t : State) (later : List HostMove), runSteps n s = .next t → t.Idle → t.NoFault →
    t.port = .submit (encode .clear) :: later → FbDefined (n + 1) s ∧ CursorDefined (n + 1) s) ∧
  SameFbForEveryDraw [encode .clear] ∧ SameCursorForEveryDraw [encode .clear]

/-- R189 (FbDefined, CursorDefined), R193: a reset takes both premises away, whatever was written before it; SETCURSOR
establishes CursorDefined; a step that is no reset keeps FbDefined, and CursorDefined where SCROLL leaves CURSOR alone.
That a SCROLL which writes CURSOR takes CursorDefined away is the model's reading (log 23), and not stated here. -/
def Obligations.DefinedLastsUntilReset : Prop :=
  ∀ (n : Nat) (s t : State), runSteps n s = .next t → t.Idle →
    (∀ d later, t.port = .reset d :: later → ¬FbDefined (n + 1) s ∧ ¬CursorDefined (n + 1) s) ∧
    (∀ row column later, t.NoFault → t.port = .submit (encode (.setCursor row column)) :: later →
      CursorDefined (n + 1) s) ∧
    ((∀ d later, t.port ≠ .reset d :: later) → (FbDefined n s → FbDefined (n + 1) s) ∧
      (t.cfg.scrollCursor = .unchanged → CursorDefined n s → CursorDefined (n + 1) s))

/-- R189, R193: what is said to be given is the program's own. Two states that agree on CURSOR, on the configuration and
on the given bits of FB, whatever their other bits hold, still agree on CURSOR, and on the bits given then, after any
command. -/
def Obligations.GivenBitsAreTheProgramsOwn : Prop :=
  ∀ (i : Instr) (g : Given) (s s' t t' : State), g.fb.wf = true → s.fb.wf = true → s'.fb.wf = true →
    s.cfg = s'.cfg → s.cursor = s'.cursor → (∀ a, s.fb.read a &&& g.fb.read a = s'.fb.read a &&& g.fb.read a) →
    exec i s = .next t → exec i s' = .next t' →
    t.cursor = t'.cursor ∧
      ∀ a, t.fb.read a &&& (g.afterCommand i s).fb.read a = t'.fb.read a &&& (g.afterCommand i s).fb.read a

/-! ## Line rasterizer (spec/41_raster.md) -/

/-- R111: DRAWLINE completes for every operand and is Plot at each of its points in order; it leaves no line register
behind and changes nothing but FB. -/
def Obligations.DrawLinePlotsItsPoints : Prop :=
  ∀ (x0 y0 x1 y1 : Byte) (mode : Mode) (s : State),
    exec (.drawLine x0 y0 x1 y1 mode) s =
      .next (((linePointsOf x0 y0 x1 y1).foldl (fun u p => plot p.1.toNat p.2.toNat mode u) s).withLine none)

/-- R111, R114 cases 6 and 7: DRAWLINE completes and changes FB alone: a pixel plotted at least once (after wrap) is 1
under Set and 0 under Clear, a pixel is inverted under Toggle exactly when it is plotted an odd number of times, and a
pixel that is not plotted keeps its bit. -/
def Obligations.DrawLineChangesExactlyItsPixels : Prop :=
  ∀ (x0 y0 x1 y1 : Byte) (mode : Mode) (s : State), s.fb.wf = true →
    ∃ m, exec (.drawLine x0 y0 x1 y1 mode) s = .next ((s.withFb m).withLine none) ∧ m.wf = true ∧
      ∀ x y, x < 128 → y < 64 →
        let hits := (linePointsOf x0 y0 x1 y1).countP fun p => p.1.toNat % 128 == x && p.2.toNat % 64 == y
        let old := (s.fb.read (pixAddr x y)).getLsbD (pixBit y)
        (m.read (pixAddr x y)).getLsbD (pixBit y) = (match mode with
          | .set => old || decide (0 < hits)
          | .clear => old && decide (hits = 0)
          | .toggle => old ^^ decide (hits % 2 = 1))

/-- R112: DRAWLINE's loop ends; it plots max(dx, |dy|) + 1 points, from (x0, y0) to (x1, y1), both included. -/
def Obligations.LineHasMaxPlusOnePoints : Prop :=
  ∀ x0 y0 x1 y1 : Byte,
    (linePointsOf x0 y0 x1 y1).length =
      max ((x1.toNat : Int) - x0.toNat).natAbs ((y1.toNat : Int) - y0.toNat).natAbs + 1 ∧
    (linePointsOf x0 y0 x1 y1).head? = some ((x0.toNat : Int), (y0.toNat : Int)) ∧
    (linePointsOf x0 y0 x1 y1).getLast? = some ((x1.toNat : Int), (y1.toNat : Int))

/-- R112: the points are distinct, each is 8-connected to the next, and all lie between the endpoints. -/
def Obligations.LinePointsAreDistinctAndConnected : Prop :=
  ∀ x0 y0 x1 y1 : Byte,
    (linePointsOf x0 y0 x1 y1).Nodup ∧
    (linePointsOf x0 y0 x1 y1).IsChain
      (fun p q => p ≠ q ∧ (q.1 - p.1).natAbs ≤ 1 ∧ (q.2 - p.2).natAbs ≤ 1) ∧
    ∀ p ∈ linePointsOf x0 y0 x1 y1,
      ((min x0.toNat x1.toNat : Nat) : Int) ≤ p.1 ∧ p.1 ≤ ((max x0.toNat x1.toNat : Nat) : Int) ∧
      ((min y0.toNat y1.toNat : Nat) : Int) ≤ p.2 ∧ p.2 ≤ ((max y0.toNat y1.toNat : Nat) : Int)

/-- R113: throughout DRAWLINE, between the two updates of an iteration too, 2dy ≤ err ≤ 2dx, so err and e2 fit 11-bit
two's complement. -/
def Obligations.LineErrorStaysBounded : Prop :=
  ∀ (x0 y0 x1 y1 : Byte) (n : Nat),
    let r := lineNext^[n] (lineSetup x0.toNat y0.toNat x1.toNat y1.toNat)
    let mid := stepX (2 * r.err) r
    2 * r.dy ≤ r.err ∧ r.err ≤ 2 * r.dx ∧ 2 * r.dy ≤ mid.err ∧ mid.err ≤ 2 * r.dx ∧
      4 * r.dy ≤ 2 * r.err ∧ 2 * r.err ≤ 4 * r.dx ∧
      -510 ≤ r.err ∧ r.err ≤ 510 ∧ -510 ≤ mid.err ∧ mid.err ≤ 510 ∧ -1020 ≤ 2 * r.err ∧ 2 * r.err ≤ 1020

/-- R115: the golden line's points, its error terms, and the iterations (counted from 0) at which its y test holds; and
R114 cases 1 and 5. -/
def Obligations.GoldenLinePoints : Prop :=
  linePointsOf 0#8 0#8 7#8 3#8 = [(0, 0), (1, 0), (2, 1), (3, 1), (4, 2), (5, 2), (6, 3), (7, 3)] ∧
  ((List.range 8).map fun n => (lineNext^[n] (lineSetup 0 0 7 3)).err) = [4, 1, 5, 2, 6, 3, 7, 4] ∧
  ((List.range 7).filter fun n =>
    let r := lineNext^[n] (lineSetup 0 0 7 3)
    decide (2 * r.err ≤ r.dx)) = [1, 3, 5] ∧
  linePointsOf 0#8 0#8 0#8 0#8 = [(0, 0)] ∧
  linePointsOf 0#8 0#8 1#8 2#8 = [(0, 0), (1, 1), (1, 2)] ∧
  linePointsOf 1#8 2#8 0#8 0#8 = [(1, 2), (0, 1), (0, 0)]

/-! ## Bus (spec/42_bus.md) -/

/-- R134: the two control bytes; bit 6 is the selector, every other bit is 0. -/
def Obligations.ControlBytesSelectByBitSix : Prop :=
  ctrlCmd = 0x00#8 ∧ ctrlData = 0x40#8 ∧
  ∀ data j, j < 8 → (ctrlByte data).getLsbD j = (data && decide (j = 6))

/-- R136: DEV_ADDR is the 7-bit address in bits 7:1 with the read/write bit 0, 0x78 by default; and in the events of every
command, each START is followed by the byte DEV_ADDR, so that bit is never 1 in an address byte. -/
def Obligations.AddressByteIsFirstAndWrites : Prop :=
  (∀ cfg : Config, cfg.devAddr.toNat = cfg.devAddr7.toNat * 2 ∧ WriteAddress cfg ∧
    (DefaultCfg cfg → cfg.devAddr = 0x78#8 ∧ cfg.devAddr7 = 0x3C#7)) ∧
  ∀ (i : Instr) (s t : State), exec i s = .next t → ∃ evs, t.trace = s.trace ++ evs ∧
    ∀ n, evs[n]? = some .start → ∃ answer, evs[n + 1]? = some (.wr s.cfg.devAddr answer)

/-- R132, R133: the transaction's state machine, run from a request until it is IDLE again, does exactly what the
procedure does: the same trace, result, hidden registers (PIDX and ACKR as log 18 says) and answers taken, and stuck on the same answers. -/
def Obligations.TransactionMachineIsTheProcedure : Prop :=
  ∀ (ctrl : Byte) (payload : List Byte) (s : State),
    engineRun ctrl payload (payload.length + 5) (requestTxn s) = busTxn ctrl payload s

/-- R133, R135, R137, R148: whenever a bus command completes, its events are its transactions in order, each framed and
ended by its first failed byte or its last; RESULT is the last transaction's; one answer was taken for each byte
written; the bus is released; and nothing else of the state changed. -/
def Obligations.BusCommandEmitsItsTransactions : Prop :=
  ∀ (i : Instr) (s t : State), isBusCommand i = true → exec i s = .next t →
    ∃ evs r, AreTxns (txnsOf i s) r evs ∧ t.trace = s.trace ++ evs ∧ t.result = ackResult r ∧ t.bus.phase = .idle ∧
      BusFrame s t ∧ t.oracle = s.oracle.dropAnswers (writesIn evs)

/-- R131, R135, R187, R189 (NoStall): every bus command completes when no answer is STALL, whatever the acknowledgments;
FB, CURSOR, FAULT and FAULT_CMD are unchanged, and its transactions are those of its rule. -/
def Obligations.BusCommandCompletesWithoutStall : Prop :=
  ∀ (i : Instr) (s : State), isBusCommand i = true → s.oracle.NoStall →
    ∃ t evs r, exec i s = .next t ∧ AreTxns (txnsOf i s) r evs ∧ t.trace = s.trace ++ evs ∧
      t.result = ackResult r ∧ t.bus.phase = .idle ∧ BusFrame s t ∧ t.oracle.NoStall

/-- R138 to R146, R189 (AllAck): with every byte acknowledged, a bus command appends all the bytes of all its
transactions and RESULT is 0x01. -/
def Obligations.AcknowledgedBusCommandSendsEverything : Prop :=
  ∀ (i : Instr) (s : State), isBusCommand i = true → s.oracle.AllAck →
    ∃ t, exec i s = .next t ∧ t.trace = s.trace ++ (txnsOf i s).flatMap ackedTxn ∧ t.result = 0x01#8 ∧ BusFrame s t

/-- R148 law 3: how many events each bus command appends with every byte acknowledged, REFRESH with the default
preamble's length. -/
def Obligations.AcknowledgedEventCounts : Prop :=
  ∀ s : State, s.oracle.AllAck →
    (∀ byte, ∃ t, exec (.sendCmd byte) s = .next t ∧ t.trace.length = s.trace.length + 5) ∧
    (∀ level, ∃ t, exec (.setBrightness level) s = .next t ∧ t.trace.length = s.trace.length + 10) ∧
    (∃ t, exec .init s = .next t ∧ t.trace.length = s.trace.length + 18) ∧
    (s.cfg.refreshPreamble.length = 3 → ∃ t, exec .refresh s = .next t ∧ t.trace.length = s.trace.length + 1043)

/-- R133, R135: in a command of one transaction, a byte that is not acknowledged after others that were ends the
transaction: STOP follows it, RESULT is 0x00, and no byte after it is sent. -/
def Obligations.FailedByteEndsTheTransaction : Prop :=
  ∀ (i : Instr) (s : State) (bytes : List Byte) (k : Nat) (h : k < bytes.length),
    isBusCommand i = true → txnsOf i s = [bytes] →
    (∀ j, j < k → s.oracle.answerAt j = .ack) → s.oracle.answerAt k = .nack →
    ∃ t, exec i s = .next t ∧
      t.trace = s.trace ++ .start :: ((bytes.take k).map (.wr · .ack) ++ [.wr bytes[k] .nack, .stop]) ∧
      t.result = 0x00#8 ∧ BusFrame s t

/-- R131, R187, R199: a byte that is never completed, after others that were acknowledged, leaves a bus command without
an outcome, in whichever of its transactions it stands. -/
def Obligations.StalledByteLeavesNoOutcome : Prop :=
  ∀ (i : Instr) (s : State) (k : Nat), isBusCommand i = true → k < ((txnsOf i s).map List.length).sum →
    (∀ j, j < k → s.oracle.answerAt j = .ack) → s.oracle.answerAt k = .stall → exec i s = .fault .busStalled

/-- R137, R197: a SETBRIGHTNESS whose selector transaction fails at its address byte still sends the level, and reports
the second transaction alone. -/
def Obligations.SetBrightnessHidesAFailedSelector : Prop :=
  ∀ (level : Byte) (s : State) (later : List Answer), s.oracle.placed = .nack :: later →
    Oracle.AllAck { s.oracle with placed := later } →
    ∃ t, exec (.setBrightness level) s = .next t ∧
      t.trace = s.trace ++ ([.start, .wr s.cfg.devAddr .nack, .stop] ++ ackedTxn [s.cfg.devAddr, 0x00#8, level]) ∧
      t.result = 0x01#8 ∧ BusFrame s t

/-- R149: SLEEP and TURNOFF do the same, and so do WAKE and TURNON, under four distinct words. -/
def Obligations.SleepIsTurnOffAndWakeIsTurnOn : Prop :=
  (∀ s, exec .sleep s = exec .turnOff s ∧ exec .wake s = exec .turnOn s) ∧
  ([encode .sleep, encode .turnOff, encode .wake, encode .turnOn] : List CmdWord).Nodup

/-! ## Faults, the port and reset (spec/60_exceptions.md, spec/70_reset_and_hazards.md) -/

/-- R187: when FBC is idle and not halted and the word at the port decodes to a command, the step is that command
executed on the state with the word taken off the port; when it completes, the port gives back Ok, or Fault with the
code and the word if FAULT is then not 0 (R10; the port and its reply are the model's fields, log 9, 11). -/
def Obligations.StepRunsTheDecodedCommand : Prop :=
  ∀ (s : State) (w : CmdWord) (later : List HostMove) (i : Instr),
    s.Idle → s.NoFault → s.port = .submit w :: later → decode w = .ok i →
    (∀ t, exec i (s.withPort later) = .next t →
      step s = .next (t.withReply (if t.fault = 0x00#8 then .ok else .fault t.fault t.faultCmd))) ∧
    (∀ r, exec i (s.withPort later) = .fault r → step s = .fault r) ∧
    (∀ r, exec i (s.withPort later) = .refused r → step s = .refused r)

/-- R171, R187: a word that does not decode writes FAULT and FAULT_CMD and nothing else of FBC's state. -/
def Obligations.UndecodableWordFaults : Prop :=
  ∀ (s : State) (w : CmdWord) (later : List HostMove) (code : FaultCode),
    s.Idle → s.NoFault → s.port = .submit w :: later → decode w = .error code →
    step s = .next (((s.withPort later).withFault (faultByte code) w).withReply (.fault (faultByte code) w))

/-- R172: while FAULT is not 0 a submitted word returns Halted and changes no state of FBC. -/
def Obligations.HaltedWordChangesNothing : Prop :=
  ∀ (s : State) (w : CmdWord) (later : List HostMove),
    s.Idle → s.fault ≠ 0x00#8 → s.port = .submit w :: later →
    step s = .next ((s.withPort later).withReply .halted)

/-- R172, R176: over any number of steps in which no reset waits, a halted FBC keeps its whole state. -/
def Obligations.HaltLastsUntilReset : Prop :=
  ∀ (n : Nat) (s t : State), s.fault ≠ 0x00#8 → (∀ d, .reset d ∉ s.port) → runSteps n s = .next t →
    t = { s with port := t.port, reply := t.reply }

/-- R170: after decode no command but WRITECHAR raises a fault, and that one only from an out-of-range cursor, with
nothing else changed. -/
def Obligations.OnlyWriteCharFaultsAfterDecode : Prop :=
  ∀ (i : Instr) (s t : State), exec i s = .next t →
    (t.fault = s.fault ∧ t.faultCmd = s.faultCmd) ∨
    (∃ code noadv, i = .writeChar code noadv ∧ s.cursor.toNat ≠ 1024 ∧ 1016 < s.cursor.toNat ∧
      t = s.withFault 0x04#8 (encode i))

/-- R28: a status read between commands gives the register of its number, 0 for a number above 4, and changes no state
of FBC; BUSY reads 0. -/
def Obligations.StatusPortReadsTheRegisters : Prop :=
  ∀ (s : State) (number : Nat) (later : List HostMove), s.Idle → s.port = .readStatus number :: later →
    ∃ v : BitVec 64, step s = .next ((s.withPort later).withReply (.status v)) ∧
      (number = 0 → v.toNat = s.result.toNat % 2) ∧ (number = 1 → v.toNat = s.fault.toNat) ∧
      (number = 2 → v.toNat = s.cursor.toNat) ∧ (number = 3 → v = s.faultCmd) ∧
      (number = 4 → v.toNat = if s.fault = 0x00#8 then 0 else 1) ∧ (4 < number → v = 0#64)

/-- R190, R191, R192: reset, for every draw: FB and CURSOR are the draw's, RESULT, FAULT_CMD and TRACE are cleared, no
transaction is open, no line register is live, the configuration is as it was, and FAULT is 0x05 exactly when
ALLOC_MAY_FAIL is true and the draw says so, else 0x00. What stays at the port and the oracle is the model's choice
(log 13). -/
def Obligations.ResetTakesTheDraw : Prop :=
  ∀ (s : State) (d : ResetDraw) (later : List HostMove), s.Idle → s.port = .reset d :: later →
    ∃ t, step s = .next t ∧ t.fb.wf = true ∧ (∀ a : Fin 1024, t.fb.read a.val = d.fb[a]) ∧ t.cursor = d.cursor ∧
      t.result = 0x00#8 ∧ t.fault = (if s.cfg.allocMayFail && d.allocFails then 0x05#8 else 0x00#8) ∧
      t.faultCmd = 0#64 ∧ t.trace = [] ∧ t.bus.phase = .idle ∧ t.line = none ∧ t.cfg = s.cfg ∧
      t.port = later ∧ t.oracle = s.oracle

/-- R181 (the port blocks) and the model's choice for an empty port (log 9) and for a move while a command runs
(log 12): with no move waiting a step changes nothing; with one waiting and a command running it is refused. -/
def Obligations.PortServesOnlyBetweenCommands : Prop :=
  (∀ s : State, s.port = [] → step s = .next s) ∧
  ∀ (s : State) (move : HostMove) (later : List HostMove), s.port = move :: later → ¬s.Idle →
    step s = .refused .commandRunning

/-- R22, R23, R24, R33: which commands write FB, CURSOR, RESULT and TRACE. -/
def Obligations.RegistersHaveTheirWriters : Prop :=
  ∀ (i : Instr) (s t : State), exec i s = .next t →
    (t.fb ≠ s.fb → opcodeOfInstr i ∈ ([.setPixel, .drawLine, .writeChar, .scroll, .clear] : List Opcode)) ∧
    (t.cursor ≠ s.cursor → opcodeOfInstr i ∈ ([.setCursor, .writeChar, .clear] : List Opcode) ∨
      (i = .scroll ∧ s.cfg.scrollCursor = .lastRow)) ∧
    (t.result ≠ s.result → opcodeOfInstr i = .getPixel ∨ isBusCommand i = true) ∧
    (t.trace ≠ s.trace ∨ t.oracle ≠ s.oracle → isBusCommand i = true)

/-- R190: what reset leaves where the spec gives the value (the zero FB and CURSOR of State.reset are the model's
choice, log 4, 5, and not stated here), and the invariant holds there; its configuration takes R5's defaults (log 3). -/
def Obligations.ResetMeetsTheInvariant : Prop :=
  State.reset.Inv ∧ State.reset.result = 0x00#8 ∧ State.reset.fault = 0x00#8 ∧ State.reset.faultCmd = 0#64 ∧
    State.reset.trace = [] ∧ State.reset.bus.phase = .idle ∧ State.reset.line = none ∧
    framed State.reset.cfg.devAddr State.reset.trace = true ∧ DefaultCfg State.reset.cfg ∧ WriteAddress State.reset.cfg

/-- R22, R24, R26, R30, R34, R170, R192: every step keeps the invariant, from every state that meets it. -/
def Obligations.EveryStepKeepsTheInvariant : Prop :=
  ∀ s t : State, s.Inv → step s = .next t → t.Inv

/-- R136, R147, R148: every step keeps TRACE a sequence of whole transactions: each START is matched by one STOP, the
first byte is DEV_ADDR, every byte but a transaction's last was acknowledged, and none is open between steps. -/
def Obligations.EveryStepKeepsTheTraceFramed : Prop :=
  ∀ s t : State, framed s.cfg.devAddr s.trace = true → step s = .next t → framed t.cfg.devAddr t.trace = true

/-- R27: no step changes the configuration. -/
def Obligations.NoStepChangesTheConfiguration : Prop :=
  ∀ s t : State, step s = .next t → t.cfg = s.cfg
end

