-- ==== Sys2Proof/Laws/Encoding.lean ====
section
/-! SUPPORT. The fields of an encoded word (spec/30_encoding.md R61, R72), and the small facts of the opcode map. -/

namespace Sys2Proof

section Fields

variable (opc modifier a b c d : Byte)

/-- Every bit of R72's word belongs to one field; bits 63:48 are 0. -/
theorem getLsbD_wordOfFields (j : Nat) (hj : j < 64) :
    (wordOfFields opc modifier a b c d).getLsbD j =
      if j < 8 then opc.getLsbD j else if j < 16 then modifier.getLsbD (j - 8)
      else if j < 24 then a.getLsbD (j - 16) else if j < 32 then b.getLsbD (j - 24)
      else if j < 40 then c.getLsbD (j - 32) else if j < 48 then d.getLsbD (j - 40) else false := by
  interval_cases j <;> simp [wordOfFields]

theorem extract_wordOfFields (start len : Nat) (v : BitVec len)
    (hv : ∀ i < len, (wordOfFields opc modifier a b c d).getLsbD (start + i) = v.getLsbD i) :
    (wordOfFields opc modifier a b c d).extractLsb' start len = v :=
  BitVec.eq_of_getLsbD_eq fun i hi => by simp [hi, hv i hi]

@[simp] theorem opc_wordOfFields : (wordOfFields opc modifier a b c d).opc = opc :=
  extract_wordOfFields _ _ _ _ _ _ 0 8 opc fun i hi => by
    rw [getLsbD_wordOfFields _ _ _ _ _ _ _ (by omega)]; simp [hi]

@[simp] theorem modifier_wordOfFields : (wordOfFields opc modifier a b c d).modifier = modifier :=
  extract_wordOfFields _ _ _ _ _ _ 8 8 modifier fun i hi => by
    rw [getLsbD_wordOfFields _ _ _ _ _ _ _ (by omega)]; simp [show 8 + i < 16 by omega]

@[simp] theorem a_wordOfFields : (wordOfFields opc modifier a b c d).a = a :=
  extract_wordOfFields _ _ _ _ _ _ 16 8 a fun i hi => by
    rw [getLsbD_wordOfFields _ _ _ _ _ _ _ (by omega)]
    simp [show ¬16 + i < 8 by omega, show ¬16 + i < 16 by omega, show 16 + i < 24 by omega]

@[simp] theorem b_wordOfFields : (wordOfFields opc modifier a b c d).b = b :=
  extract_wordOfFields _ _ _ _ _ _ 24 8 b fun i hi => by
    rw [getLsbD_wordOfFields _ _ _ _ _ _ _ (by omega)]
    simp [show ¬24 + i < 8 by omega, show ¬24 + i < 16 by omega, show ¬24 + i < 24 by omega,
      show 24 + i < 32 by omega]

@[simp] theorem c_wordOfFields : (wordOfFields opc modifier a b c d).c = c :=
  extract_wordOfFields _ _ _ _ _ _ 32 8 c fun i hi => by
    rw [getLsbD_wordOfFields _ _ _ _ _ _ _ (by omega)]
    simp [show ¬32 + i < 8 by omega, show ¬32 + i < 16 by omega, show ¬32 + i < 24 by omega,
      show ¬32 + i < 32 by omega, show 32 + i < 40 by omega]

@[simp] theorem d_wordOfFields : (wordOfFields opc modifier a b c d).d = d :=
  extract_wordOfFields _ _ _ _ _ _ 40 8 d fun i hi => by
    rw [getLsbD_wordOfFields _ _ _ _ _ _ _ (by omega)]
    simp [show ¬40 + i < 8 by omega, show ¬40 + i < 16 by omega, show ¬40 + i < 24 by omega,
      show ¬40 + i < 32 by omega, show ¬40 + i < 40 by omega, show 40 + i < 48 by omega]

@[simp] theorem rsv_wordOfFields : (wordOfFields opc modifier a b c d).rsv = 0#16 :=
  extract_wordOfFields _ _ _ _ _ _ 48 16 0#16 fun i hi => by
    rw [getLsbD_wordOfFields _ _ _ _ _ _ _ (by omega)]
    simp [show ¬48 + i < 8 by omega, show ¬48 + i < 16 by omega, show ¬48 + i < 24 by omega,
      show ¬48 + i < 32 by omega, show ¬48 + i < 40 by omega, show ¬48 + i < 48 by omega]

/-- Bits of the MOD field are the modifier's. -/
theorem modBits_wordOfFields (start len : Nat) (h : start + len ≤ 8) :
    (wordOfFields opc modifier a b c d).extractLsb' (8 + start) len = modifier.extractLsb' start len :=
  extract_wordOfFields _ _ _ _ _ _ (8 + start) len _ fun i hi => by
    rw [getLsbD_wordOfFields _ _ _ _ _ _ _ (by omega)]
    simp [show ¬8 + start + i < 8 by omega, show 8 + start + i < 16 by omega, show 8 + start + i - 8 = start + i by omega, hi]

end Fields

/-- R64 lists each OPC once. -/
theorem opcodeOf_opcodeByte (op : Opcode) : opcodeOf (opcodeByte op) = some op := by cases op <;> rfl

theorem mem_opcodeRows (op : Opcode) : op ∈ opcodeRows := by cases op <;> decide

theorem opcodeByte_of_opcodeOf {byte : Byte} {op : Opcode} (h : opcodeOf byte = some op) : opcodeByte op = byte := by
  simpa using List.find?_some h

theorem modeOf_modeByte (mode : Mode) : modeOf ((modeByte mode).extractLsb' 0 2) = some mode := by
  cases mode <;> rfl

/-- A command's operands are bytes, so every command is well formed. -/
theorem Instr.wellFormed_eq (i : Instr) : i.wellFormed = true := by
  have hb (x : Byte) : fitsByte x.toNat = true := decide_eq_true x.isLt
  cases i <;> simp [Instr.wellFormed, Instr.toAsm, AsmLine.wellFormed, hb]

end Sys2Proof
end

