-- ==== Sys2Proof/Laws/Memory.lean ====
section
/-! SUPPORT. The laws of FB's memory: a read after a write, that every operation keeps the canonical form, and that
canonical memories that read alike are equal. -/

namespace Sys2Proof.Machine

theorem Memory.wfFrom_cons (lo k : Nat) (v : Byte) (rest : Memory) :
    Memory.wfFrom lo ((k, v) :: rest) = true ↔
      lo ≤ k ∧ k < fbSize ∧ v ≠ Memory.unlisted ∧ Memory.wfFrom (k + 1) rest = true := by
  simp [Memory.wfFrom, and_assoc]

theorem Memory.wfFrom_mono {lo lo' : Nat} (h : lo ≤ lo') {m : Memory} (hm : m.wfFrom lo' = true) :
    m.wfFrom lo = true := by
  cases m with
  | nil => rfl
  | cons c rest =>
    obtain ⟨h1, h2⟩ := (Memory.wfFrom_cons _ c.1 c.2 _).1 hm
    exact (Memory.wfFrom_cons _ c.1 c.2 _).2 ⟨by omega, h2⟩

/-- Below the first address a canonical memory lists nothing. -/
theorem Memory.read_below {m : Memory} {lo a : Nat} (hm : m.wfFrom lo = true) (h : a < lo) :
    m.read a = Memory.unlisted := by
  induction m generalizing lo with
  | nil => rfl
  | cons c rest ih =>
    obtain ⟨h1, _, _, h4⟩ := (Memory.wfFrom_cons _ c.1 c.2 _).1 hm
    have : c.1 ≠ a := by omega
    simpa [Memory.read, this] using ih h4 (by omega)

/-- Outside FB a canonical memory lists nothing. -/
theorem Memory.read_outside {m : Memory} {lo a : Nat} (hm : m.wfFrom lo = true) (h : fbSize ≤ a) :
    m.read a = Memory.unlisted := by
  induction m generalizing lo with
  | nil => rfl
  | cons c rest ih =>
    obtain ⟨_, h2, _, h4⟩ := (Memory.wfFrom_cons _ c.1 c.2 _).1 hm
    have : c.1 ≠ a := by omega
    simpa [Memory.read, this] using ih h4

theorem Memory.read_entry_append (a b : Nat) (v : Byte) (m : Memory) :
    Memory.read (Memory.entry a v ++ m) b = if a = b ∧ v ≠ Memory.unlisted then v else m.read b := by
  by_cases hv : v = Memory.unlisted <;> simp [Memory.entry, hv, Memory.read]

theorem Memory.wfFrom_entry_append {lo a : Nat} {v : Byte} {m : Memory} (hlo : lo ≤ a) (ha : a < fbSize)
    (hm : m.wfFrom (a + 1) = true) : Memory.wfFrom lo (Memory.entry a v ++ m) = true := by
  by_cases hv : v = Memory.unlisted
  · simpa [Memory.entry, hv] using Memory.wfFrom_mono (by omega) hm
  · simpa [Memory.entry, hv] using (Memory.wfFrom_cons _ _ _ _).2 ⟨hlo, ha, hv, hm⟩

/-! ## One byte -/

theorem Memory.wfFrom_write {m : Memory} {lo a : Nat} {v : Byte} (hlo : lo ≤ a) (ha : a < fbSize)
    (hm : m.wfFrom lo = true) : (m.write a v).wfFrom lo = true := by
  induction m generalizing lo with
  | nil => simpa [Memory.write] using Memory.wfFrom_entry_append (v := v) (m := []) hlo ha rfl
  | cons c rest ih =>
    obtain ⟨h1, h2, h3, h4⟩ := (Memory.wfFrom_cons _ c.1 c.2 _).1 hm
    simp only [Memory.write]
    split_ifs with hk hk'
    · exact (Memory.wfFrom_cons _ _ _ _).2 ⟨h1, h2, h3, ih (by omega) h4⟩
    · exact Memory.wfFrom_entry_append hlo ha (by simpa [hk'] using h4)
    · exact Memory.wfFrom_entry_append hlo ha ((Memory.wfFrom_cons _ _ _ _).2 ⟨by omega, h2, h3, h4⟩)

/-- A write inside FB keeps the canonical form. -/
theorem Memory.wf_write {m : Memory} {a : Nat} (v : Byte) (ha : a < fbSize) (hm : m.wf = true) :
    (m.write a v).wf = true :=
  Memory.wfFrom_write (Nat.zero_le _) ha hm

theorem Memory.read_write_same {m : Memory} {lo : Nat} (hm : m.wfFrom lo = true) (a : Nat) (v : Byte) :
    (m.write a v).read a = v := by
  induction m generalizing lo with
  | nil =>
    have h := Memory.read_entry_append a a v []
    by_cases hv : v = Memory.unlisted <;> simp_all [Memory.write, Memory.read]
  | cons c rest ih =>
    obtain ⟨h1, h2, h3, h4⟩ := (Memory.wfFrom_cons _ c.1 c.2 _).1 hm
    simp only [Memory.write]
    split_ifs with hk hk'
    · have : c.1 ≠ a := by omega
      simpa [Memory.read, this] using ih h4
    · rw [Memory.read_entry_append]
      by_cases hv : v = Memory.unlisted
      · simpa [hv] using Memory.read_below h4 (by omega)
      · simp [hv]
    · rw [Memory.read_entry_append]
      by_cases hv : v = Memory.unlisted
      · have : c.1 ≠ a := by omega
        simpa [hv, Memory.read, this] using Memory.read_below h4 (by omega)
      · simp [hv]

theorem Memory.read_write_ne (m : Memory) {a b : Nat} (v : Byte) (h : a ≠ b) : (m.write a v).read b = m.read b := by
  induction m with
  | nil => simpa [Memory.write, h] using Memory.read_entry_append a b v []
  | cons c rest ih =>
    simp only [Memory.write]
    split_ifs with hk hk'
    · by_cases hc : c.1 = b <;> simp [Memory.read, hc, ih]
    · have : c.1 ≠ b := by omega
      rw [Memory.read_entry_append]
      simp [h, Memory.read, this]
    · rw [Memory.read_entry_append]
      simp [h]

/-- A write, read back at any address. -/
theorem Memory.read_write {m : Memory} (hm : m.wf = true) (a b : Nat) (v : Byte) :
    (m.write a v).read b = if a = b then v else m.read b := by
  by_cases h : a = b
  · simpa [h] using Memory.read_write_same hm b v
  · simpa [h] using Memory.read_write_ne m v h

/-! ## Bytes in order -/

theorem Memory.wf_writeBytes {bs : List Byte} {m : Memory} {a : Nat} (ha : a + bs.length ≤ fbSize) (hm : m.wf = true) :
    (m.writeBytes a bs).wf = true := by
  induction bs generalizing m a with
  | nil => exact hm
  | cons b bs ih =>
    simp only [List.length_cons] at ha
    exact ih (by omega) (Memory.wf_write b (by omega) hm)

/-- Outside the written bytes nothing changes. -/
theorem Memory.read_writeBytes_outside (bs : List Byte) (m : Memory) {a b : Nat} (h : b < a ∨ a + bs.length ≤ b) :
    (m.writeBytes a bs).read b = m.read b := by
  induction bs generalizing m a with
  | nil => rfl
  | cons c bs ih =>
    simp only [List.length_cons] at h
    rw [Memory.writeBytes, ih _ (by omega), Memory.read_write_ne _ _ (by omega)]

/-- Byte `k` of the written bytes is found at `a + k`. -/
theorem Memory.read_writeBytes_inside {bs : List Byte} {m : Memory} {a k : Nat} (ha : a + bs.length ≤ fbSize)
    (hm : m.wf = true) (hk : k < bs.length) : (m.writeBytes a bs).read (a + k) = bs[k] := by
  induction bs generalizing m a k with
  | nil => simp at hk
  | cons c bs ih =>
    simp only [List.length_cons] at ha hk
    have hw := Memory.wf_write c (by omega) hm (a := a)
    cases k with
    | zero =>
      rw [Memory.writeBytes, Memory.read_writeBytes_outside _ _ (by omega)]
      simpa using Memory.read_write_same hm a c
    | succ k =>
      have := ih (m := m.write a c) (a := a + 1) (k := k) (by omega) hw (by omega)
      simpa [Memory.writeBytes, Nat.add_assoc, Nat.add_comm 1 k] using this

/-! ## Scroll, clear and whole contents -/

theorem Memory.wfFrom_scroll {m : Memory} {lo : Nat} (hm : m.wfFrom lo = true) :
    m.scroll.wfFrom (lo - lineStride) = true := by
  induction m generalizing lo with
  | nil => rfl
  | cons c rest ih =>
    obtain ⟨h1, h2, h3, h4⟩ := (Memory.wfFrom_cons _ c.1 c.2 _).1 hm
    have hr := ih h4
    by_cases hc : lineStride ≤ c.1
    · have : Memory.scroll (c :: rest) = (c.1 - lineStride, c.2) :: Memory.scroll rest := by
        simp [Memory.scroll, hc, h2]
      rw [this]
      exact (Memory.wfFrom_cons _ _ _ _).2
        ⟨by omega, by omega, h3, by rwa [show c.1 - lineStride + 1 = c.1 + 1 - lineStride by omega]⟩
    · have : Memory.scroll (c :: rest) = Memory.scroll rest := by simp [Memory.scroll, hc]
      rw [this]
      exact Memory.wfFrom_mono (by omega) hr

/-- A scroll keeps the canonical form. -/
theorem Memory.wf_scroll {m : Memory} (hm : m.wf = true) : m.scroll.wf = true :=
  Memory.wfFrom_mono (Nat.zero_le _) (Memory.wfFrom_scroll hm)

/-- A scroll, read back (R85): byte `i` is the byte that was 128 further on, and 0 in the last row. -/
theorem Memory.read_scroll (m : Memory) (i : Nat) :
    m.scroll.read i = if i < lastRow then m.read (i + lineStride) else Memory.unlisted := by
  induction m with
  | nil => simp [Memory.scroll, Memory.read]
  | cons c rest ih =>
    by_cases hc : lineStride ≤ c.1 ∧ c.1 < fbSize
    · have : Memory.scroll (c :: rest) = (c.1 - lineStride, c.2) :: Memory.scroll rest := by
        simp only [Memory.scroll, List.filterMap_cons, if_pos hc]
      rw [this, Memory.read, Memory.read, ih]
      simp only [lineStride, fbSize, lastRow] at hc ⊢
      split_ifs <;> first | rfl | omega
    · have : Memory.scroll (c :: rest) = Memory.scroll rest := by
        simp only [Memory.scroll, List.filterMap_cons, if_neg hc]
      rw [this, ih]
      simp only [lineStride, fbSize, lastRow] at hc ⊢
      split_ifs with hi
      · have : c.1 ≠ i + 128 := by omega
        simp [Memory.read, this]
      · rfl

theorem Memory.wf_zeros : Memory.zeros.wf = true := rfl

theorem Memory.read_zeros (a : Nat) : Memory.zeros.read a = 0x00#8 := rfl

theorem Memory.wfFrom_ofBytes {bs : List Byte} {base : Nat} (h : base + bs.length ≤ fbSize) :
    (Memory.ofBytes base bs).wfFrom base = true := by
  induction bs generalizing base with
  | nil => rfl
  | cons b bs ih =>
    simp only [List.length_cons] at h
    exact Memory.wfFrom_entry_append (le_refl _) (by omega) (ih (by omega))

/-- The memory of given bytes is canonical. -/
theorem Memory.wf_ofBytes {bs : List Byte} (h : bs.length ≤ fbSize) : (Memory.ofBytes 0 bs).wf = true :=
  Memory.wfFrom_ofBytes (by omega)

theorem Memory.read_ofBytes_below {bs : List Byte} {base a : Nat} (h : a < base) :
    (Memory.ofBytes base bs).read a = Memory.unlisted := by
  induction bs generalizing base with
  | nil => rfl
  | cons b bs ih =>
    rw [Memory.ofBytes, Memory.read_entry_append, ih (by omega)]
    have : base ≠ a := by omega
    simp [this]

/-- The memory of given bytes reads as they are. -/
theorem Memory.read_ofBytes {bs : List Byte} (base k : Nat) (hk : k < bs.length) :
    (Memory.ofBytes base bs).read (base + k) = bs[k] := by
  induction bs generalizing base k with
  | nil => simp at hk
  | cons b bs ih =>
    rw [Memory.ofBytes, Memory.read_entry_append]
    cases k with
    | zero =>
      by_cases hb : b = Memory.unlisted
      · simpa [hb] using Memory.read_ofBytes_below (Nat.lt_succ_self base)
      · simp [hb]
    | succ k =>
      have := ih (base + 1) k (by simpa using hk)
      simpa [Nat.add_assoc, Nat.add_comm 1 k] using this

/-- The bytes of FB in order. -/
theorem Memory.bytes_length (m : Memory) : m.bytes.length = fbSize := by simp [Memory.bytes]

theorem Memory.bytes_get (m : Memory) (k : Nat) (hk : k < m.bytes.length) : m.bytes[k] = m.read k := by
  simp [Memory.bytes]

/-! ## Canonical memories that read alike are equal -/

theorem Memory.eq_of_read_wfFrom {m m' : Memory} {lo : Nat} (hm : m.wfFrom lo = true) (hm' : m'.wfFrom lo = true)
    (h : ∀ a, m.read a = m'.read a) : m = m' := by
  induction m generalizing m' lo with
  | nil =>
    cases m' with
    | nil => rfl
    | cons c rest =>
      obtain ⟨_, _, h3, _⟩ := (Memory.wfFrom_cons _ c.1 c.2 _).1 hm'
      exact absurd (by simpa [Memory.read] using (h c.1).symm) h3
  | cons c rest ih =>
    obtain ⟨h1, _, h3, h4⟩ := (Memory.wfFrom_cons _ c.1 c.2 _).1 hm
    cases m' with
    | nil => exact absurd (by simpa [Memory.read] using h c.1) h3
    | cons d rest' =>
      obtain ⟨g1, _, g3, g4⟩ := (Memory.wfFrom_cons _ d.1 d.2 _).1 hm'
      have hcd : c.1 = d.1 := by
        rcases lt_trichotomy c.1 d.1 with hlt | heq | hgt
        · have hc := h c.1
          rw [Memory.read, if_pos rfl, Memory.read, if_neg (by omega), Memory.read_below g4 (by omega)] at hc
          exact absurd hc h3
        · exact heq
        · have hd := h d.1
          rw [Memory.read, if_neg (by omega), Memory.read_below h4 (by omega), Memory.read, if_pos rfl] at hd
          exact absurd hd.symm g3
      have hv : c.2 = d.2 := by simpa [Memory.read, hcd] using h c.1
      have hrest : rest = rest' := by
        refine ih h4 (hcd ▸ g4) fun a => ?_
        by_cases ha : a < c.1 + 1
        · rw [Memory.read_below h4 ha, Memory.read_below g4 (by omega)]
        · have hc := h a
          rwa [Memory.read, Memory.read, if_neg (by omega), if_neg (by omega)] at hc
      rw [hrest, show c = d from Prod.ext hcd hv]

/-- Canonical memories that read alike are equal. -/
theorem Memory.eq_of_read {m m' : Memory} (hm : m.wf = true) (hm' : m'.wf = true) (h : ∀ a, m.read a = m'.read a) :
    m = m' :=
  Memory.eq_of_read_wfFrom hm hm' h

end Sys2Proof.Machine
end

