-- ==== Sys2Proof/Laws/State.lean ====
section
/-! SUPPORT. What each update of State does to each field: the updated field holds the new value, every other its old one. -/

namespace Sys2Proof.Machine

/-! ## withFb -/

@[simp] theorem State.withFb_fb (s : State) (m : Memory) : (s.withFb m).fb = m := rfl
@[simp] theorem State.withFb_cursor (s : State) (m : Memory) : (s.withFb m).cursor = s.cursor := rfl
@[simp] theorem State.withFb_result (s : State) (m : Memory) : (s.withFb m).result = s.result := rfl
@[simp] theorem State.withFb_fault (s : State) (m : Memory) : (s.withFb m).fault = s.fault := rfl
@[simp] theorem State.withFb_faultCmd (s : State) (m : Memory) : (s.withFb m).faultCmd = s.faultCmd := rfl
@[simp] theorem State.withFb_trace (s : State) (m : Memory) : (s.withFb m).trace = s.trace := rfl
@[simp] theorem State.withFb_bus (s : State) (m : Memory) : (s.withFb m).bus = s.bus := rfl
@[simp] theorem State.withFb_line (s : State) (m : Memory) : (s.withFb m).line = s.line := rfl
@[simp] theorem State.withFb_cfg (s : State) (m : Memory) : (s.withFb m).cfg = s.cfg := rfl
@[simp] theorem State.withFb_oracle (s : State) (m : Memory) : (s.withFb m).oracle = s.oracle := rfl
@[simp] theorem State.withFb_port (s : State) (m : Memory) : (s.withFb m).port = s.port := rfl
@[simp] theorem State.withFb_reply (s : State) (m : Memory) : (s.withFb m).reply = s.reply := rfl

/-! ## withCursor -/

@[simp] theorem State.withCursor_fb (s : State) (v : BitVec 16) : (s.withCursor v).fb = s.fb := rfl
@[simp] theorem State.withCursor_cursor (s : State) (v : BitVec 16) : (s.withCursor v).cursor = v := rfl
@[simp] theorem State.withCursor_result (s : State) (v : BitVec 16) : (s.withCursor v).result = s.result := rfl
@[simp] theorem State.withCursor_fault (s : State) (v : BitVec 16) : (s.withCursor v).fault = s.fault := rfl
@[simp] theorem State.withCursor_faultCmd (s : State) (v : BitVec 16) : (s.withCursor v).faultCmd = s.faultCmd := rfl
@[simp] theorem State.withCursor_trace (s : State) (v : BitVec 16) : (s.withCursor v).trace = s.trace := rfl
@[simp] theorem State.withCursor_bus (s : State) (v : BitVec 16) : (s.withCursor v).bus = s.bus := rfl
@[simp] theorem State.withCursor_line (s : State) (v : BitVec 16) : (s.withCursor v).line = s.line := rfl
@[simp] theorem State.withCursor_cfg (s : State) (v : BitVec 16) : (s.withCursor v).cfg = s.cfg := rfl
@[simp] theorem State.withCursor_oracle (s : State) (v : BitVec 16) : (s.withCursor v).oracle = s.oracle := rfl
@[simp] theorem State.withCursor_port (s : State) (v : BitVec 16) : (s.withCursor v).port = s.port := rfl
@[simp] theorem State.withCursor_reply (s : State) (v : BitVec 16) : (s.withCursor v).reply = s.reply := rfl

/-! ## withResult -/

@[simp] theorem State.withResult_fb (s : State) (v : Byte) : (s.withResult v).fb = s.fb := rfl
@[simp] theorem State.withResult_cursor (s : State) (v : Byte) : (s.withResult v).cursor = s.cursor := rfl
@[simp] theorem State.withResult_result (s : State) (v : Byte) : (s.withResult v).result = v := rfl
@[simp] theorem State.withResult_fault (s : State) (v : Byte) : (s.withResult v).fault = s.fault := rfl
@[simp] theorem State.withResult_faultCmd (s : State) (v : Byte) : (s.withResult v).faultCmd = s.faultCmd := rfl
@[simp] theorem State.withResult_trace (s : State) (v : Byte) : (s.withResult v).trace = s.trace := rfl
@[simp] theorem State.withResult_bus (s : State) (v : Byte) : (s.withResult v).bus = s.bus := rfl
@[simp] theorem State.withResult_line (s : State) (v : Byte) : (s.withResult v).line = s.line := rfl
@[simp] theorem State.withResult_cfg (s : State) (v : Byte) : (s.withResult v).cfg = s.cfg := rfl
@[simp] theorem State.withResult_oracle (s : State) (v : Byte) : (s.withResult v).oracle = s.oracle := rfl
@[simp] theorem State.withResult_port (s : State) (v : Byte) : (s.withResult v).port = s.port := rfl
@[simp] theorem State.withResult_reply (s : State) (v : Byte) : (s.withResult v).reply = s.reply := rfl

/-! ## withFault -/

@[simp] theorem State.withFault_fb (s : State) (code : Byte) (w : CmdWord) : (s.withFault code w).fb = s.fb := rfl
@[simp] theorem State.withFault_cursor (s : State) (code : Byte) (w : CmdWord) : (s.withFault code w).cursor = s.cursor := rfl
@[simp] theorem State.withFault_result (s : State) (code : Byte) (w : CmdWord) : (s.withFault code w).result = s.result := rfl
@[simp] theorem State.withFault_fault (s : State) (code : Byte) (w : CmdWord) : (s.withFault code w).fault = code := rfl
@[simp] theorem State.withFault_faultCmd (s : State) (code : Byte) (w : CmdWord) : (s.withFault code w).faultCmd = w := rfl
@[simp] theorem State.withFault_trace (s : State) (code : Byte) (w : CmdWord) : (s.withFault code w).trace = s.trace := rfl
@[simp] theorem State.withFault_bus (s : State) (code : Byte) (w : CmdWord) : (s.withFault code w).bus = s.bus := rfl
@[simp] theorem State.withFault_line (s : State) (code : Byte) (w : CmdWord) : (s.withFault code w).line = s.line := rfl
@[simp] theorem State.withFault_cfg (s : State) (code : Byte) (w : CmdWord) : (s.withFault code w).cfg = s.cfg := rfl
@[simp] theorem State.withFault_oracle (s : State) (code : Byte) (w : CmdWord) : (s.withFault code w).oracle = s.oracle := rfl
@[simp] theorem State.withFault_port (s : State) (code : Byte) (w : CmdWord) : (s.withFault code w).port = s.port := rfl
@[simp] theorem State.withFault_reply (s : State) (code : Byte) (w : CmdWord) : (s.withFault code w).reply = s.reply := rfl

/-! ## emit -/

@[simp] theorem State.emit_fb (s : State) (e : BusEvent) : (s.emit e).fb = s.fb := rfl
@[simp] theorem State.emit_cursor (s : State) (e : BusEvent) : (s.emit e).cursor = s.cursor := rfl
@[simp] theorem State.emit_result (s : State) (e : BusEvent) : (s.emit e).result = s.result := rfl
@[simp] theorem State.emit_fault (s : State) (e : BusEvent) : (s.emit e).fault = s.fault := rfl
@[simp] theorem State.emit_faultCmd (s : State) (e : BusEvent) : (s.emit e).faultCmd = s.faultCmd := rfl
@[simp] theorem State.emit_trace (s : State) (e : BusEvent) : (s.emit e).trace = s.trace ++ [e] := rfl
@[simp] theorem State.emit_bus (s : State) (e : BusEvent) : (s.emit e).bus = s.bus := rfl
@[simp] theorem State.emit_line (s : State) (e : BusEvent) : (s.emit e).line = s.line := rfl
@[simp] theorem State.emit_cfg (s : State) (e : BusEvent) : (s.emit e).cfg = s.cfg := rfl
@[simp] theorem State.emit_oracle (s : State) (e : BusEvent) : (s.emit e).oracle = s.oracle := rfl
@[simp] theorem State.emit_port (s : State) (e : BusEvent) : (s.emit e).port = s.port := rfl
@[simp] theorem State.emit_reply (s : State) (e : BusEvent) : (s.emit e).reply = s.reply := rfl

/-! ## withBus -/

@[simp] theorem State.withBus_fb (s : State) (b : BusEngine) : (s.withBus b).fb = s.fb := rfl
@[simp] theorem State.withBus_cursor (s : State) (b : BusEngine) : (s.withBus b).cursor = s.cursor := rfl
@[simp] theorem State.withBus_result (s : State) (b : BusEngine) : (s.withBus b).result = s.result := rfl
@[simp] theorem State.withBus_fault (s : State) (b : BusEngine) : (s.withBus b).fault = s.fault := rfl
@[simp] theorem State.withBus_faultCmd (s : State) (b : BusEngine) : (s.withBus b).faultCmd = s.faultCmd := rfl
@[simp] theorem State.withBus_trace (s : State) (b : BusEngine) : (s.withBus b).trace = s.trace := rfl
@[simp] theorem State.withBus_bus (s : State) (b : BusEngine) : (s.withBus b).bus = b := rfl
@[simp] theorem State.withBus_line (s : State) (b : BusEngine) : (s.withBus b).line = s.line := rfl
@[simp] theorem State.withBus_cfg (s : State) (b : BusEngine) : (s.withBus b).cfg = s.cfg := rfl
@[simp] theorem State.withBus_oracle (s : State) (b : BusEngine) : (s.withBus b).oracle = s.oracle := rfl
@[simp] theorem State.withBus_port (s : State) (b : BusEngine) : (s.withBus b).port = s.port := rfl
@[simp] theorem State.withBus_reply (s : State) (b : BusEngine) : (s.withBus b).reply = s.reply := rfl

/-! ## withLine -/

@[simp] theorem State.withLine_fb (s : State) (r : Option LineRegs) : (s.withLine r).fb = s.fb := rfl
@[simp] theorem State.withLine_cursor (s : State) (r : Option LineRegs) : (s.withLine r).cursor = s.cursor := rfl
@[simp] theorem State.withLine_result (s : State) (r : Option LineRegs) : (s.withLine r).result = s.result := rfl
@[simp] theorem State.withLine_fault (s : State) (r : Option LineRegs) : (s.withLine r).fault = s.fault := rfl
@[simp] theorem State.withLine_faultCmd (s : State) (r : Option LineRegs) : (s.withLine r).faultCmd = s.faultCmd := rfl
@[simp] theorem State.withLine_trace (s : State) (r : Option LineRegs) : (s.withLine r).trace = s.trace := rfl
@[simp] theorem State.withLine_bus (s : State) (r : Option LineRegs) : (s.withLine r).bus = s.bus := rfl
@[simp] theorem State.withLine_line (s : State) (r : Option LineRegs) : (s.withLine r).line = r := rfl
@[simp] theorem State.withLine_cfg (s : State) (r : Option LineRegs) : (s.withLine r).cfg = s.cfg := rfl
@[simp] theorem State.withLine_oracle (s : State) (r : Option LineRegs) : (s.withLine r).oracle = s.oracle := rfl
@[simp] theorem State.withLine_port (s : State) (r : Option LineRegs) : (s.withLine r).port = s.port := rfl
@[simp] theorem State.withLine_reply (s : State) (r : Option LineRegs) : (s.withLine r).reply = s.reply := rfl

/-! ## withOracle -/

@[simp] theorem State.withOracle_fb (s : State) (o : Oracle) : (s.withOracle o).fb = s.fb := rfl
@[simp] theorem State.withOracle_cursor (s : State) (o : Oracle) : (s.withOracle o).cursor = s.cursor := rfl
@[simp] theorem State.withOracle_result (s : State) (o : Oracle) : (s.withOracle o).result = s.result := rfl
@[simp] theorem State.withOracle_fault (s : State) (o : Oracle) : (s.withOracle o).fault = s.fault := rfl
@[simp] theorem State.withOracle_faultCmd (s : State) (o : Oracle) : (s.withOracle o).faultCmd = s.faultCmd := rfl
@[simp] theorem State.withOracle_trace (s : State) (o : Oracle) : (s.withOracle o).trace = s.trace := rfl
@[simp] theorem State.withOracle_bus (s : State) (o : Oracle) : (s.withOracle o).bus = s.bus := rfl
@[simp] theorem State.withOracle_line (s : State) (o : Oracle) : (s.withOracle o).line = s.line := rfl
@[simp] theorem State.withOracle_cfg (s : State) (o : Oracle) : (s.withOracle o).cfg = s.cfg := rfl
@[simp] theorem State.withOracle_oracle (s : State) (o : Oracle) : (s.withOracle o).oracle = o := rfl
@[simp] theorem State.withOracle_port (s : State) (o : Oracle) : (s.withOracle o).port = s.port := rfl
@[simp] theorem State.withOracle_reply (s : State) (o : Oracle) : (s.withOracle o).reply = s.reply := rfl

/-! ## withPort -/

@[simp] theorem State.withPort_fb (s : State) (p : List HostMove) : (s.withPort p).fb = s.fb := rfl
@[simp] theorem State.withPort_cursor (s : State) (p : List HostMove) : (s.withPort p).cursor = s.cursor := rfl
@[simp] theorem State.withPort_result (s : State) (p : List HostMove) : (s.withPort p).result = s.result := rfl
@[simp] theorem State.withPort_fault (s : State) (p : List HostMove) : (s.withPort p).fault = s.fault := rfl
@[simp] theorem State.withPort_faultCmd (s : State) (p : List HostMove) : (s.withPort p).faultCmd = s.faultCmd := rfl
@[simp] theorem State.withPort_trace (s : State) (p : List HostMove) : (s.withPort p).trace = s.trace := rfl
@[simp] theorem State.withPort_bus (s : State) (p : List HostMove) : (s.withPort p).bus = s.bus := rfl
@[simp] theorem State.withPort_line (s : State) (p : List HostMove) : (s.withPort p).line = s.line := rfl
@[simp] theorem State.withPort_cfg (s : State) (p : List HostMove) : (s.withPort p).cfg = s.cfg := rfl
@[simp] theorem State.withPort_oracle (s : State) (p : List HostMove) : (s.withPort p).oracle = s.oracle := rfl
@[simp] theorem State.withPort_port (s : State) (p : List HostMove) : (s.withPort p).port = p := rfl
@[simp] theorem State.withPort_reply (s : State) (p : List HostMove) : (s.withPort p).reply = s.reply := rfl

/-! ## withReply -/

@[simp] theorem State.withReply_fb (s : State) (r : Reply) : (s.withReply r).fb = s.fb := rfl
@[simp] theorem State.withReply_cursor (s : State) (r : Reply) : (s.withReply r).cursor = s.cursor := rfl
@[simp] theorem State.withReply_result (s : State) (r : Reply) : (s.withReply r).result = s.result := rfl
@[simp] theorem State.withReply_fault (s : State) (r : Reply) : (s.withReply r).fault = s.fault := rfl
@[simp] theorem State.withReply_faultCmd (s : State) (r : Reply) : (s.withReply r).faultCmd = s.faultCmd := rfl
@[simp] theorem State.withReply_trace (s : State) (r : Reply) : (s.withReply r).trace = s.trace := rfl
@[simp] theorem State.withReply_bus (s : State) (r : Reply) : (s.withReply r).bus = s.bus := rfl
@[simp] theorem State.withReply_line (s : State) (r : Reply) : (s.withReply r).line = s.line := rfl
@[simp] theorem State.withReply_cfg (s : State) (r : Reply) : (s.withReply r).cfg = s.cfg := rfl
@[simp] theorem State.withReply_oracle (s : State) (r : Reply) : (s.withReply r).oracle = s.oracle := rfl
@[simp] theorem State.withReply_port (s : State) (r : Reply) : (s.withReply r).port = s.port := rfl
@[simp] theorem State.withReply_reply (s : State) (r : Reply) : (s.withReply r).reply = some r := rfl

end Sys2Proof.Machine
end

