-- ==== Sys2Proof/Laws/Ops.lean ====
section
/-! SUPPORT. What each shared operation can do, said once: a plotted pixel, the rasterizer's loop, a raised fault, one
byte on the bus and one transaction. -/

namespace Sys2Proof.Machine

/-! ## Pixels -/

theorem wrapX_lt (x : Nat) : wrapX x < 128 := Nat.mod_lt _ (by decide)

theorem wrapY_lt (y : Nat) : wrapY y < 64 := Nat.mod_lt _ (by decide)

theorem plotAddr_lt (x y : Nat) : plotAddr x y < fbSize := by
  have hx := wrapX_lt x
  have hy := wrapY_lt y
  simp only [plotAddr, pixAddr, panelWidth, fbSize]
  omega

theorem pixBit_lt (y : Nat) : pixBit y < 8 := Nat.mod_lt _ (by decide)

/-- A plot changes FB only, keeps its form, and leaves every byte but its own. -/
theorem plot_spec (x y : Nat) (mode : Mode) (s : State) (hs : s.fb.wf = true) :
    ∃ m, plot x y mode s = s.withFb m ∧ m.wf = true ∧
      m.read (plotAddr x y) = pixelOp (s.fb.read (plotAddr x y)) (pixBit (wrapY y)) mode ∧
      ∀ a, a ≠ plotAddr x y → m.read a = s.fb.read a :=
  ⟨_, rfl, Memory.wf_write _ (plotAddr_lt x y) hs, by rw [Memory.read_write hs, if_pos rfl],
    fun a ha => Memory.read_write_ne _ _ ha.symm⟩

/-! ## Lines -/

/-- The rasterizer's loop changes FB and the line registers only, and keeps FB's form. -/
theorem rasterize_spec (x1 y1 : Int) (mode : Mode) (n : Nat) (s : State) (hs : s.fb.wf = true) :
    ∃ m r, rasterize x1 y1 mode n s = (s.withFb m).withLine r ∧ m.wf = true := by
  induction n generalizing s with
  | zero => exact ⟨s.fb, s.line, rfl, hs⟩
  | succ n ih =>
    unfold rasterize
    split
    · next h => exact ⟨s.fb, s.line, rfl, hs⟩
    · next r h =>
      obtain ⟨m, hm, hwf, _, _⟩ := plot_spec r.x.toNat r.y.toNat mode s hs
      split
      · exact ⟨m, none, by rw [hm], hwf⟩
      · obtain ⟨m', r', h', hwf'⟩ := ih ((plot r.x.toNat r.y.toNat mode s).withLine (some (lineNext r)))
          (by simpa [hm] using hwf)
        exact ⟨m', r', by rw [h', hm]; rfl, hwf'⟩

/-! ## Faults -/

/-- Raising a fault writes FAULT and FAULT_CMD and nothing else (R171). -/
theorem raiseFault_eq (code : FaultCode) (w : CmdWord) (s : State) :
    raiseFault code w s = { s with fault := faultByte code, faultCmd := w } := rfl

/-! ## One byte on the bus -/

/-- DEV_ADDR is twice the 7-bit address (R136). -/
theorem Config.devAddr_toNat (cfg : Config) : cfg.devAddr.toNat = cfg.devAddr7.toNat * 2 := by
  have := cfg.devAddr7.isLt
  simp only [Config.devAddr, BitVec.toNat_shiftLeft, BitVec.toNat_setWidth, Nat.shiftLeft_eq]
  omega

/-- No configuration's address byte asks for a read (R136). -/
theorem writeAddress (cfg : Config) : WriteAddress cfg := by
  simp [WriteAddress, Config.devAddr]

theorem BusFrame.refl (s : State) : BusFrame s s := ⟨rfl, rfl, rfl, rfl, rfl, rfl, rfl, rfl⟩

theorem BusFrame.trans {s t u : State} (h : BusFrame s t) (g : BusFrame t u) : BusFrame s u :=
  ⟨g.1.trans h.1, g.2.trans h.2, g.3.trans h.3, g.4.trans h.4, g.5.trans h.5, g.6.trans h.6, g.7.trans h.7, g.8.trans h.8⟩

theorem nextAnswer_snd (o : Oracle) : (nextAnswer o).2 = o.dropAnswers 1 := by
  obtain ⟨placed, rest⟩ := o
  cases placed <;> rfl

theorem Oracle.dropAnswers_dropAnswers (o : Oracle) (m n : Nat) :
    (o.dropAnswers m).dropAnswers n = o.dropAnswers (m + n) := by
  simp [Oracle.dropAnswers, List.drop_drop]

theorem Oracle.NoStall.dropAnswers {o : Oracle} (h : o.NoStall) (n : Nat) : (o.dropAnswers n).NoStall :=
  ⟨fun a ha => h.1 a (List.mem_of_mem_drop ha), h.2⟩

theorem Oracle.AllAck.dropAnswers {o : Oracle} (h : o.AllAck) (n : Nat) : (o.dropAnswers n).AllAck :=
  ⟨fun a ha => h.1 a (List.mem_of_mem_drop ha), h.2⟩

theorem Oracle.AllAck.noStall {o : Oracle} (h : o.AllAck) : o.NoStall :=
  ⟨fun a ha => by rw [h.1 a ha]; decide, by rw [h.2]; decide⟩

theorem nextAnswer_ne_stall {o : Oracle} (h : o.NoStall) : (nextAnswer o).1 ≠ .stall := by
  obtain ⟨placed, rest⟩ := o
  cases placed with
  | nil => exact h.2
  | cons a later => exact h.1 a (by simp)

theorem nextAnswer_eq_ack {o : Oracle} (h : o.AllAck) : (nextAnswer o).1 = .ack := by
  obtain ⟨placed, rest⟩ := o
  cases placed with
  | nil => exact h.2
  | cons a later => exact h.1 a (by simp)

/-- What writing a run of bytes does: bytes go out until one is not acknowledged; each takes one answer. -/
def Wrote (bytes : List Byte) (s t : State) : Prop :=
  ∃ sent last unsent, bytes = sent ++ last :: unsent ∧ (t.bus.ackr = .ack → unsent = []) ∧
    t.trace = s.trace ++ (sent.map (.wr · .ack) ++ [.wr last t.bus.ackr]) ∧ t.result = s.result ∧
    BusFrame s t ∧ t.oracle = s.oracle.dropAnswers (sent.length + 1)

/-- One byte on the bus: everything it can do (R130, R131). -/
theorem busWrite_spec {b : Byte} {s t : State} (h : busWrite b s = some t) :
    t.trace = s.trace ++ [.wr b t.bus.ackr] ∧ t.result = s.result ∧ BusFrame s t ∧
      t.oracle = s.oracle.dropAnswers 1 ∧ t.bus.phase = s.bus.phase ∧ t.bus.pidx = s.bus.pidx := by
  unfold busWrite at h
  split at h
  · exact absurd h (by simp)
  · next a _ =>
    obtain rfl := Option.some.inj h
    exact ⟨rfl, rfl, ⟨rfl, rfl, rfl, rfl, rfl, rfl, rfl, rfl⟩, nextAnswer_snd _, rfl, rfl⟩

theorem busWrite_isSome {s : State} (b : Byte) (h : s.oracle.NoStall) : ∃ t, busWrite b s = some t := by
  unfold busWrite
  rcases hc : (nextAnswer s.oracle).1 with _ | _ | _
  · exact ⟨_, by simp [answerAck]; rfl⟩
  · exact ⟨_, by simp [answerAck]; rfl⟩
  · exact absurd hc (nextAnswer_ne_stall h)

theorem busWrite_ackr {s t : State} {b : Byte} (h : s.oracle.AllAck) (ht : busWrite b s = some t) :
    t.bus.ackr = .ack := by
  have hc := nextAnswer_eq_ack h
  simp only [busWrite, hc, answerAck, Option.some.injEq] at ht
  exact ht ▸ rfl

theorem Wrote.single {b : Byte} {s t u : State} (bytes : List Byte) (h : busWrite b s = some t)
    (hu : BusFrame t u ∧ u.trace = t.trace ∧ u.result = t.result ∧ u.oracle = t.oracle ∧ u.bus.ackr = t.bus.ackr)
    (hb : u.bus.ackr = .ack → bytes = []) : Wrote (b :: bytes) s u := by
  obtain ⟨h1, h2, h3, h4, _, _⟩ := busWrite_spec h
  obtain ⟨g1, g2, g3, g4, g5⟩ := hu
  exact ⟨[], b, bytes, rfl, hb, by rw [g2, h1, g5]; rfl, g3.trans h2, h3.trans g1, g4.trans h4⟩

theorem Wrote.cons {b : Byte} {bytes : List Byte} {s t u v : State} (h : busWrite b s = some t)
    (ha : t.bus.ackr = .ack) (hv : Wrote bytes u v)
    (hu : BusFrame t u ∧ u.trace = t.trace ∧ u.result = t.result ∧ u.oracle = t.oracle) : Wrote (b :: bytes) s v := by
  obtain ⟨h1, h2, h3, h4, _, _⟩ := busWrite_spec h
  obtain ⟨g1, g2, g3, g4⟩ := hu
  obtain ⟨sent, last, unsent, k1, k2, k3, k4, k5, k6⟩ := hv
  refine ⟨b :: sent, last, unsent, by rw [k1]; rfl, k2, ?_, k4.trans (g3.trans h2), (h3.trans g1).trans k5, ?_⟩
  · rw [k3, g2, h1, ha]; simp
  · rw [k6, g4, h4, Oracle.dropAnswers_dropAnswers, List.length_cons, Nat.add_comm 1]

/-! ## One transaction -/

theorem BusFrame.withBus (s : State) (b : BusEngine) : BusFrame s (s.withBus b) := ⟨rfl, rfl, rfl, rfl, rfl, rfl, rfl, rfl⟩

theorem sendPayload_wrote {p : List Byte} {s t : State} (hp : p ≠ []) (h : sendPayload p s = some t) : Wrote p s t := by
  induction p generalizing s with
  | nil => exact absurd rfl hp
  | cons b bs ih =>
    unfold sendPayload at h
    split at h
    · exact absurd h (by simp)
    · next u hu =>
      split at h
      · next ha =>
        rcases bs with _ | ⟨c, cs⟩
        · obtain rfl := Option.some.inj h
          exact Wrote.single [] hu ⟨BusFrame.withBus _ _, rfl, rfl, rfl, rfl⟩ fun _ => rfl
        · exact Wrote.cons hu ha (ih (by simp) h) ⟨BusFrame.withBus _ _, rfl, rfl, rfl⟩
      · next ha =>
        obtain rfl := Option.some.inj h
        exact Wrote.single bs hu ⟨BusFrame.withBus _ _, rfl, rfl, rfl, rfl⟩ fun hc => by simp [ha] at hc

theorem sendCtrl_wrote {ctrl : Byte} {p : List Byte} {s t : State} (h : sendCtrl ctrl p s = some t) :
    Wrote (ctrl :: p) s t := by
  unfold sendCtrl at h
  split at h
  · exact absurd h (by simp)
  · next u hu =>
    split at h
    · next ha =>
      rcases p with _ | ⟨c, cs⟩
      · obtain rfl := Option.some.inj h
        exact Wrote.single [] hu ⟨BusFrame.withBus _ _, rfl, rfl, rfl, rfl⟩ fun _ => rfl
      · exact Wrote.cons hu ha (sendPayload_wrote (by simp) h) ⟨BusFrame.withBus _ _, rfl, rfl, rfl⟩
    · next ha =>
      obtain rfl := Option.some.inj h
      exact Wrote.single p hu ⟨BusFrame.refl _, rfl, rfl, rfl, rfl⟩ fun hc => by simp [ha] at hc

theorem sendAddr_wrote {ctrl : Byte} {p : List Byte} {s t : State} (h : sendAddr ctrl p s = some t) :
    Wrote (s.cfg.devAddr :: ctrl :: p) s t := by
  unfold sendAddr at h
  split at h
  · exact absurd h (by simp)
  · next u hu =>
    split at h
    · next ha => exact Wrote.cons hu ha (sendCtrl_wrote h) ⟨BusFrame.withBus _ _, rfl, rfl, rfl⟩
    · next ha =>
      obtain rfl := Option.some.inj h
      exact Wrote.single _ hu ⟨BusFrame.refl _, rfl, rfl, rfl, rfl⟩ fun hc => by simp [ha] at hc

theorem writesIn_txn (sent : List Byte) (last : Byte) (r : Ack) :
    writesIn (.start :: (sent.map (.wr · .ack) ++ [.wr last r, .stop])) = sent.length + 1 := by
  simp only [writesIn, List.countP_cons, List.countP_append, List.countP_map]
  simp [Function.comp_def]

/-- One transaction: everything it can do (R133). Its events are framed, its result is the last write's answer, it takes
one answer for each byte written, the bus is released, and nothing but TRACE, RESULT, the engine and the answers
changes. -/
theorem busTxn_spec {ctrl : Byte} {p : List Byte} {s t : State} (h : busTxn ctrl p s = some t) :
    ∃ evs, IsTxn (s.cfg.devAddr :: ctrl :: p) t.bus.ackr evs ∧ t.trace = s.trace ++ evs ∧
      t.result = ackResult t.bus.ackr ∧ t.bus.phase = .idle ∧ BusFrame s t ∧
      t.oracle = s.oracle.dropAnswers (writesIn evs) := by
  unfold busTxn at h
  obtain ⟨u, hu, rfl⟩ := Option.map_eq_some_iff.1 h
  obtain ⟨sent, last, unsent, k1, k2, k3, k4, k5, k6⟩ := sendAddr_wrote hu
  refine ⟨_, ⟨sent, last, unsent, k1, k2, rfl⟩, ?_, rfl, rfl, ?_, ?_⟩
  · simp only [busStop, State.withBus_trace, State.withResult_trace, State.emit_trace, k3, busStart]
    simp
  · exact ⟨k5.1, k5.2, k5.3, k5.4, k5.5, k5.6, k5.7, k5.8⟩
  · rw [writesIn_txn]
    exact k6

theorem sendPayload_isSome {p : List Byte} {s : State} (h : s.oracle.NoStall) : ∃ t, sendPayload p s = some t := by
  induction p generalizing s with
  | nil => exact ⟨s, rfl⟩
  | cons b bs ih =>
    obtain ⟨u, hu⟩ := busWrite_isSome b h
    have hn : u.oracle.NoStall := (busWrite_spec hu).2.2.2.1 ▸ h.dropAnswers 1
    unfold sendPayload
    rw [hu]
    rcases ha : u.bus.ackr with _ | _
    · simpa [ha] using ih (s := u.withBus { u.bus with pidx := u.bus.pidx + 1 }) hn
    · exact ⟨_, by simp [ha]; rfl⟩

theorem sendCtrl_isSome (ctrl : Byte) (p : List Byte) {s : State} (h : s.oracle.NoStall) :
    ∃ t, sendCtrl ctrl p s = some t := by
  obtain ⟨u, hu⟩ := busWrite_isSome ctrl h
  have hn : u.oracle.NoStall := (busWrite_spec hu).2.2.2.1 ▸ h.dropAnswers 1
  unfold sendCtrl
  rw [hu]
  rcases ha : u.bus.ackr with _ | _
  · simpa [ha] using sendPayload_isSome (p := p) (s := u.withBus { u.bus with phase := .payload, pidx := 0 }) hn
  · exact ⟨_, by simp [ha]; rfl⟩

theorem sendAddr_isSome (ctrl : Byte) (p : List Byte) {s : State} (h : s.oracle.NoStall) :
    ∃ t, sendAddr ctrl p s = some t := by
  obtain ⟨u, hu⟩ := busWrite_isSome s.cfg.devAddr h
  have hn : u.oracle.NoStall := (busWrite_spec hu).2.2.2.1 ▸ h.dropAnswers 1
  unfold sendAddr
  rw [hu]
  rcases ha : u.bus.ackr with _ | _
  · simpa [ha] using sendCtrl_isSome ctrl p (s := u.withBus { u.bus with phase := .ctrl }) hn
  · exact ⟨_, by simp [ha]; rfl⟩

/-- A transaction completes when no answer is STALL. -/
theorem busTxn_isSome {s : State} (ctrl : Byte) (p : List Byte) (h : s.oracle.NoStall) :
    ∃ t, busTxn ctrl p s = some t ∧ t.oracle.NoStall := by
  obtain ⟨u, hu⟩ := sendAddr_isSome ctrl p (s := busStart s) h
  have ht : busTxn ctrl p s = some (busStop u) := by rw [busTxn, hu]; rfl
  obtain ⟨evs, _, _, _, _, _, ho⟩ := busTxn_spec ht
  exact ⟨_, ht, ho ▸ h.dropAnswers _⟩

theorem sendPayload_ackr {p : List Byte} {s t : State} (h : s.oracle.AllAck) (ha : s.bus.ackr = .ack)
    (ht : sendPayload p s = some t) : t.bus.ackr = .ack := by
  induction p generalizing s with
  | nil => exact Option.some.inj ht ▸ ha
  | cons b bs ih =>
    obtain ⟨u, hu⟩ := busWrite_isSome b h.noStall
    have hack := busWrite_ackr h hu
    unfold sendPayload at ht
    simp only [hu, hack] at ht
    exact ih (s := u.withBus { u.bus with pidx := u.bus.pidx + 1 })
      ((busWrite_spec hu).2.2.2.1 ▸ h.dropAnswers 1) hack (by simpa [hack] using ht)

theorem sendCtrl_ackr {ctrl : Byte} {p : List Byte} {s t : State} (h : s.oracle.AllAck)
    (ht : sendCtrl ctrl p s = some t) : t.bus.ackr = .ack := by
  obtain ⟨u, hu⟩ := busWrite_isSome ctrl h.noStall
  have hack := busWrite_ackr h hu
  unfold sendCtrl at ht
  simp only [hu, hack] at ht
  exact sendPayload_ackr (s := u.withBus { u.bus with phase := .payload, pidx := 0 })
    ((busWrite_spec hu).2.2.2.1 ▸ h.dropAnswers 1) hack (by simpa [hack] using ht)

/-- A transaction whose answers are all ACK has the result ACK. -/
theorem busTxn_ackr {ctrl : Byte} {p : List Byte} {s t : State} (h : s.oracle.AllAck) (ht : busTxn ctrl p s = some t) :
    t.bus.ackr = .ack ∧ t.oracle.AllAck := by
  obtain ⟨evs, _, _, _, _, _, ho⟩ := busTxn_spec ht
  refine ⟨?_, ho ▸ h.dropAnswers _⟩
  obtain ⟨v, hv, rfl⟩ := Option.map_eq_some_iff.1 ht
  obtain ⟨u, hu⟩ := busWrite_isSome s.cfg.devAddr (s := busStart s) h.noStall
  have hack := busWrite_ackr (s := busStart s) h hu
  have hv' : sendAddr ctrl p (busStart s) = some v := hv
  unfold sendAddr at hv'
  rw [show (busStart s).cfg.devAddr = s.cfg.devAddr from rfl] at hv'
  simp only [hu, hack] at hv'
  show v.bus.ackr = .ack
  exact sendCtrl_ackr (s := u.withBus { u.bus with phase := .ctrl })
    ((busWrite_spec hu).2.2.2.1 ▸ h.dropAnswers (o := (busStart s).oracle) 1) (by simpa [hack] using hv')

end Sys2Proof.Machine
end

