-- ==== Sys2Proof/Laws/History.lean ====
section
/-! SUPPORT. What the record of a run can say: it keeps the canonical form, and one more step adds that step's part. -/

namespace Sys2Proof.Machine

theorem wf_giveAll : giveAll.wf = true := by
  rw [giveAll]
  exact Memory.wf_ofBytes (List.length_replicate ..).le

theorem read_giveAll {a : Nat} (ha : a < fbSize) : giveAll.read a = 0xFF#8 := by
  have h := Memory.read_ofBytes (bs := List.replicate fbSize 0xFF#8) 0 a (by simpa using ha)
  rwa [Nat.zero_add, List.getElem_replicate, ← giveAll] at h

theorem wf_giveBytes {m : Memory} {a n : Nat} (h : a + n ≤ fbSize) (hm : m.wf = true) : (giveBytes m a n).wf = true := by
  rw [giveBytes]
  exact Memory.wf_writeBytes (by simpa using h) hm

/-- Bytes given whole read so, and every other byte as before. -/
theorem read_giveBytes {m : Memory} {a n : Nat} (h : a + n ≤ fbSize) (hm : m.wf = true) (b : Nat) :
    (giveBytes m a n).read b = if a ≤ b ∧ b < a + n then 0xFF#8 else m.read b := by
  split_ifs with hb
  · obtain ⟨k, rfl⟩ := Nat.exists_eq_add_of_le hb.1
    rw [giveBytes, Memory.read_writeBytes_inside (by simpa using h) hm (by simpa using hb.2), List.getElem_replicate]
  · rw [giveBytes]
    exact Memory.read_writeBytes_outside _ _ (by simp only [List.length_replicate]; omega)

theorem wf_givePlot (x y : Nat) (mode : Mode) {m : Memory} (hm : m.wf = true) : (givePlot x y mode m).wf = true := by
  cases mode
  · exact Memory.wf_write _ (plotAddr_lt x y) hm
  · exact Memory.wf_write _ (plotAddr_lt x y) hm
  · exact hm

theorem wf_givePlots (ps : List (Int × Int)) (mode : Mode) {m : Memory} (hm : m.wf = true) :
    (ps.foldl (fun m p => givePlot p.1.toNat p.2.toNat mode m) m).wf = true := by
  induction ps generalizing m with
  | nil => exact hm
  | cons p ps ih => exact ih (wf_givePlot _ _ mode hm)

theorem wf_giveScroll {m : Memory} (hm : m.wf = true) : (giveScroll m).wf = true :=
  wf_giveBytes (by decide) (Memory.wf_scroll hm)

/-- What is given after a scroll: what was given 128 bytes further on, and the whole last row (R85). -/
theorem read_giveScroll {m : Memory} (hm : m.wf = true) (b : Nat) :
    (giveScroll m).read b =
      if lastRow ≤ b ∧ b < fbSize then 0xFF#8 else if b < lastRow then m.read (b + lineStride) else Memory.unlisted := by
  rw [giveScroll, read_giveBytes (by decide) (Memory.wf_scroll hm), Memory.read_scroll,
    show lastRow + lineStride = fbSize from rfl]

/-- Unless WRITECHAR faults, the eight bytes it writes lie in FB (R84). -/
theorem scrollAtEnd_fits {s : State} (h : cursorOob s.cursor = false) :
    (scrollAtEnd s).cursor.toNat + glyphBytes ≤ fbSize := by
  by_cases h1 : s.cursor.toNat = fbSize
  · simp only [scrollAtEnd, h1, if_true, State.withCursor_cursor, BitVec.toNat_ofNat]
    decide
  · have hc : (scrollAtEnd s).cursor = s.cursor := by simp [scrollAtEnd, h1]
    simp only [cursorOob, fbSize, glyphBytes, Bool.and_eq_false_iff, decide_eq_false_iff_not] at h h1 ⊢
    rw [hc]
    omega

theorem wf_giveGlyph (s : State) {m : Memory} (hm : m.wf = true) : (giveGlyph s m).wf = true := by
  unfold giveGlyph
  by_cases h : cursorOob s.cursor = true
  · rwa [if_pos h]
  · rw [if_neg h]
    refine wf_giveBytes (scrollAtEnd_fits (by simpa using h)) ?_
    split_ifs
    · exact wf_giveScroll hm
    · exact hm

/-- A command keeps the record canonical. -/
theorem Given.wf_afterCommand (g : Given) (i : Instr) (s : State) (hg : g.fb.wf = true) :
    (g.afterCommand i s).fb.wf = true := by
  cases i with
  | setPixel x y mode => exact wf_givePlot _ _ mode hg
  | writeChar code noadv => exact wf_giveGlyph s hg
  | scroll =>
    show (giveScroll g.fb).wf = true
    exact wf_giveScroll hg
  | clear => exact wf_giveAll
  | drawLine x0 y0 x1 y1 mode =>
    simp only [Given.afterCommand]
    exact wf_givePlots _ mode hg
  | getPixel | setCursor | sendCmd | sendData | refresh | setBrightness | sleep | wake | turnOff | turnOn | init =>
    exact hg

/-- A step keeps the record canonical. -/
theorem Given.wf_afterStep (g : Given) (s : State) (hg : g.fb.wf = true) : (g.afterStep s).fb.wf = true := by
  unfold Given.afterStep
  split
  · exact hg
  · rfl
  · exact hg
  · split_ifs
    · exact hg
    · split
      · exact hg
      · exact Given.wf_afterCommand g _ s hg

/-- The record of a run is canonical. -/
theorem wf_givenFrom (n : Nat) (s : State) (g : Given) (hg : g.fb.wf = true) : (givenFrom n s g).fb.wf = true := by
  induction n generalizing s g with
  | zero => exact hg
  | succ n ih =>
    unfold givenFrom
    split
    · exact ih _ _ (Given.wf_afterStep g s hg)
    · exact hg
    · exact hg

/-- One step more: the record of the run so far, and what that step adds. -/
theorem givenFrom_succ {n : Nat} {s t u : State} (g : Given) (h : runSteps n s = .next t) (hu : step t = .next u) :
    givenFrom (n + 1) s g = (givenFrom n s g).afterStep t := by
  induction n generalizing s g with
  | zero =>
    obtain rfl : s = t := Host.Outcome.next.inj h
    simp [givenFrom, hu]
  | succ n ih =>
    rw [givenFrom]
    simp only [runSteps, Host.Core.run] at h
    cases hs : step s with
    | next v =>
      rw [show Sys2Proof.core.step s = step s from rfl, hs] at h
      rw [show givenFrom (n + 1) s g = givenFrom n v (g.afterStep s) by simp [givenFrom, hs]]
      exact ih _ h
    | fault r => rw [show Sys2Proof.core.step s = step s from rfl, hs] at h; exact absurd h (by simp)
    | refused r => rw [show Sys2Proof.core.step s = step s from rfl, hs] at h; exact absurd h (by simp)

end Sys2Proof.Machine
end

