-- ==== Sys2Proof/Laws/PerInstr.lean ====
section
/-! SUPPORT. What holds of every command's word, one lemma per command: its OPC is its row's (spec/30_encoding.md R64),
RSV is 0, and every field its format does not list is 0 (R63, R65). -/

namespace Sys2Proof.Laws.EncodedFields

/-- The word of a command has its row's OPC and no reserved bit set. -/
def Statement (i : Instr) : Prop :=
  (encode i).opc = opcodeByte (opcodeOfInstr i) ∧ (encode i).rsv = 0#16 ∧
    formatFieldsZero (opcodeFormat (opcodeOfInstr i)) (encode i) = true

theorem modeByte_high (mode : Mode) : (modeByte mode).extractLsb' 2 6 = 0#6 := by cases mode <;> rfl

theorem noadvByte_high (noadv : Bool) : (noadvByte noadv).extractLsb' 1 7 = 0#7 := by cases noadv <;> rfl

theorem setPixel (x y : Byte) (mode : Mode) : Statement (.setPixel x y mode) := by
  have h := modBits_wordOfFields (opcodeByte .setPixel) (modeByte mode) x y 0#8 0#8 (start := 2) (len := 6) (by omega)
  simp_all [Statement, encode, opcodeOfInstr, opcodeFormat, formatFieldsZero, modeByte_high]

theorem getPixel (x y : Byte) : Statement (.getPixel x y) := by
  simp [Statement, encode, opcodeOfInstr, opcodeFormat, formatFieldsZero]

theorem writeChar (code : Byte) (noadv : Bool) : Statement (.writeChar code noadv) := by
  have h := modBits_wordOfFields (opcodeByte .writeChar) (noadvByte noadv) code 0#8 0#8 0#8 (start := 1) (len := 7) (by omega)
  simp_all [Statement, encode, opcodeOfInstr, opcodeFormat, formatFieldsZero, noadvByte_high]

theorem scroll : Statement .scroll := by
  simp [Statement, encode, opcodeOfInstr, opcodeFormat, formatFieldsZero]

theorem setCursor (row column : Byte) : Statement (.setCursor row column) := by
  simp [Statement, encode, opcodeOfInstr, opcodeFormat, formatFieldsZero]

theorem clear : Statement .clear := by
  simp [Statement, encode, opcodeOfInstr, opcodeFormat, formatFieldsZero]

theorem drawLine (x0 y0 x1 y1 : Byte) (mode : Mode) : Statement (.drawLine x0 y0 x1 y1 mode) := by
  have h := modBits_wordOfFields (opcodeByte .drawLine) (modeByte mode) x0 y0 x1 y1 (start := 2) (len := 6) (by omega)
  simp_all [Statement, encode, opcodeOfInstr, opcodeFormat, formatFieldsZero, modeByte_high]

theorem sendCmd (byte : Byte) : Statement (.sendCmd byte) := by
  simp [Statement, encode, opcodeOfInstr, opcodeFormat, formatFieldsZero]

theorem sendData (byte : Byte) : Statement (.sendData byte) := by
  simp [Statement, encode, opcodeOfInstr, opcodeFormat, formatFieldsZero]

theorem refresh : Statement .refresh := by
  simp [Statement, encode, opcodeOfInstr, opcodeFormat, formatFieldsZero]

theorem setBrightness (level : Byte) : Statement (.setBrightness level) := by
  simp [Statement, encode, opcodeOfInstr, opcodeFormat, formatFieldsZero]

theorem sleep : Statement .sleep := by
  simp [Statement, encode, opcodeOfInstr, opcodeFormat, formatFieldsZero]

theorem wake : Statement .wake := by
  simp [Statement, encode, opcodeOfInstr, opcodeFormat, formatFieldsZero]

theorem turnOff : Statement .turnOff := by
  simp [Statement, encode, opcodeOfInstr, opcodeFormat, formatFieldsZero]

theorem turnOn : Statement .turnOn := by
  simp [Statement, encode, opcodeOfInstr, opcodeFormat, formatFieldsZero]

theorem init : Statement .init := by
  simp [Statement, encode, opcodeOfInstr, opcodeFormat, formatFieldsZero]

end Sys2Proof.Laws.EncodedFields
end

