-- ==== Sys2Proof/Tests/Slice0.lean ====
section
/-! SUPPORT. Tests. Every expected value is one the spec writes out (the rule's example or a vector of
spec/95_test_vectors.md, named at the test), and for every statement with hypotheses a state that meets them. -/

namespace Sys2Proof.Tests

open Sys2Proof.Machine

/-! ## Helpers -/

/-- The test font of spec/95_test_vectors.md: byte `k` of code `c` is `c + k` modulo 256. -/
def testFont : Vector (Vector Byte 8) 256 :=
  Vector.ofFn fun c => Vector.ofFn fun k => BitVec.ofNat 8 (c.val + k.val)

/-- R5's defaults, with the test font and fourteen distinct initialization bytes. -/
def testCfg : Config := Config.withDefaults testFont (Vector.ofFn fun k => BitVec.ofNat 8 (0xE0 + k.val)) .khz100

/-- An idle FBC with a cleared FB, CURSOR 0, and every answer ACK. -/
def base : State := { State.reset with cfg := testCfg }

/-- `base` with other bytes in FB. -/
def withCells (m : Memory) : State := { base with fb := m }

/-- `base` with another cursor. -/
def atCursor (c : BitVec 16) : State := { base with cursor := c }

/-- `base` with answers placed before the ACKs. -/
def answering (answers : List Answer) : State := { base with oracle := { placed := answers, rest := .ack } }

/-- `base` with host moves waiting. -/
def awaiting (moves : List HostMove) : State := { base with port := moves }

/-- What `f` reads in the next state, none where there is none. -/
def seen {α : Type} (f : State → α) : Host.Outcome State Fault Refusal → Option α
  | .next t => some (f t)
  | .fault _ => none
  | .refused _ => none

/-- Whether the outcome is the stuck one. -/
def isStuck : Host.Outcome State Fault Refusal → Bool
  | .next _ => false
  | .fault .busStalled => true
  | .refused _ => false

/-! ## The well-formedness check refuses (R71) -/

theorem test_wf_setPixel_x : (AsmLine.setPixel 256 0 .set).wellFormed = false := by decide
theorem test_wf_setPixel_y : (AsmLine.setPixel 0 256 .set).wellFormed = false := by decide
theorem test_wf_getPixel_x : (AsmLine.getPixel 256 0).wellFormed = false := by decide
theorem test_wf_getPixel_y : (AsmLine.getPixel 0 999).wellFormed = false := by decide
theorem test_wf_writeChar : (AsmLine.writeChar 256 false).wellFormed = false := by decide
theorem test_wf_setCursor_row : (AsmLine.setCursor 256 0).wellFormed = false := by decide
theorem test_wf_setCursor_column : (AsmLine.setCursor 0 256).wellFormed = false := by decide
theorem test_wf_drawLine_x0 : (AsmLine.drawLine 256 0 0 0 .set).wellFormed = false := by decide
theorem test_wf_drawLine_y0 : (AsmLine.drawLine 0 256 0 0 .set).wellFormed = false := by decide
theorem test_wf_drawLine_x1 : (AsmLine.drawLine 0 0 256 0 .set).wellFormed = false := by decide
theorem test_wf_drawLine_y1 : (AsmLine.drawLine 0 0 0 256 .set).wellFormed = false := by decide
theorem test_wf_sendCmd : (AsmLine.sendCmd 256).wellFormed = false := by decide
theorem test_wf_sendData : (AsmLine.sendData 256).wellFormed = false := by decide
theorem test_wf_setBrightness : (AsmLine.setBrightness 256).wellFormed = false := by decide
theorem test_wf_writeString : (AsmLine.writeString [65, 256]).wellFormed = false := by decide
theorem test_wf_accepts : (AsmLine.drawLine 255 255 0 0 .toggle).wellFormed = true := by decide

/-! ## Each constructor's word, written out from spec/opcode_table.json's pattern of bits -/

theorem test_decode_setPixel :
    decodeTableWord 64 0b0000000000000000000000000000000000001001000000110000001000000001 =
      some (.setPixel 3#8 9#8 .toggle) := by decide
theorem test_decode_getPixel :
    decodeTableWord 64 0b0000000000000000000000000000000001001001100000110000000000000010 =
      some (.getPixel 131#8 73#8) := by decide
theorem test_decode_writeChar :
    decodeTableWord 64 0b0000000000000000000000000000000000000000010000010000000100000011 =
      some (.writeChar 0x41#8 true) := by decide
theorem test_decode_scroll :
    decodeTableWord 64 0b0000000000000000000000000000000000000000000000000000000000000100 = some .scroll := by decide
theorem test_decode_setCursor :
    decodeTableWord 64 0b0000000000000000000000000000000000001111000001110000000000000101 =
      some (.setCursor 7#8 15#8) := by decide
theorem test_decode_clear :
    decodeTableWord 64 0b0000000000000000000000000000000000000000000000000000000000000110 = some .clear := by decide
theorem test_decode_drawLine :
    decodeTableWord 64 0b0000000000000000010001101000011100111100011110000000000100010000 =
      some (.drawLine 120#8 60#8 135#8 70#8 .clear) := by decide
theorem test_decode_sendCmd :
    decodeTableWord 64 0b0000000000000000000000000000000000000000101011100000000000100000 =
      some (.sendCmd 0xAE#8) := by decide
theorem test_decode_sendData :
    decodeTableWord 64 0b0000000000000000000000000000000000000000111111110000000000100001 =
      some (.sendData 0xFF#8) := by decide
theorem test_decode_refresh :
    decodeTableWord 64 0b0000000000000000000000000000000000000000000000000000000000100010 = some .refresh := by decide
theorem test_decode_setBrightness :
    decodeTableWord 64 0b0000000000000000000000000000000000000000011111110000000000100011 =
      some (.setBrightness 0x7F#8) := by decide
theorem test_decode_sleep :
    decodeTableWord 64 0b0000000000000000000000000000000000000000000000000000000000100100 = some .sleep := by decide
theorem test_decode_wake :
    decodeTableWord 64 0b0000000000000000000000000000000000000000000000000000000000100101 = some .wake := by decide
theorem test_decode_turnOff :
    decodeTableWord 64 0b0000000000000000000000000000000000000000000000000000000000100110 = some .turnOff := by decide
theorem test_decode_turnOn :
    decodeTableWord 64 0b0000000000000000000000000000000000000000000000000000000000100111 = some .turnOn := by decide
theorem test_decode_init :
    decodeTableWord 64 0b0000000000000000000000000000000000000000000000000000000000101000 = some .init := by decide

/-- V-ENC: the words that fault, and how. -/
theorem test_decode_faults :
    decode 0x0000000000000007#64 = .error .illegalOpcode ∧ decode 0x0000000000000029#64 = .error .illegalOpcode ∧
    decode 0x00000000000000FF#64 = .error .illegalOpcode ∧ decode 0x0000000000000106#64 = .error .reservedField ∧
    decode 0x0000000000410203#64 = .error .reservedField ∧ decode 0x0000000100000022#64 = .error .reservedField ∧
    decode 0x0000000000AE0120#64 = .error .reservedField := by decide

/-- V-ENC: encodings (R72). -/
theorem test_encode :
    encode (.setPixel 3#8 9#8 .toggle) = 0x0000000009030201#64 ∧
    encode (.drawLine 0#8 0#8 200#8 0#8 .toggle) = 0x000000C800000210#64 ∧
    encode (.setBrightness 0x7F#8) = 0x00000000007F0023#64 ∧ encode .refresh = 0x22#64 := by decide

/-! ## The assembler (R71), and the words of program P2 -/

/-- `SETPIXEL 3, 0x9, TOGGLE ;x`. -/
theorem test_asm_setPixel :
    assembleChars ['S', 'E', 'T', 'P', 'I', 'X', 'E', 'L', ' ', '3', ',', ' ', '0', 'x', '9', ',', ' ',
      'T', 'O', 'G', 'G', 'L', 'E', ' ', ';', 'x'] = some [.setPixel 3#8 9#8 .toggle] := by decide

/-- `WRITECHAR 'C', NOADV`. -/
theorem test_asm_writeChar :
    assembleProgram [['W', 'R', 'I', 'T', 'E', 'C', 'H', 'A', 'R', ' ', '\'', 'C', '\'', ',', ' ',
      'N', 'O', 'A', 'D', 'V']] = some [0x0000000000430103#64] := by decide

/-- `WRITESTRING "HI"` and `HOME`. -/
theorem test_asm_pseudo :
    assembleProgram [['W', 'R', 'I', 'T', 'E', 'S', 'T', 'R', 'I', 'N', 'G', ' ', '"', 'H', 'I', '"'], ['H', 'O', 'M', 'E']] =
      some [0x0000000000480003#64, 0x0000000000490003#64, 0x05#64] := by decide

/-- Literals have no escape (log 22): three single quotes write code 0x27, and a string holds a backslash and a semicolon
as they stand. -/
theorem test_asm_quotes :
    assembleProgram [['W', 'R', 'I', 'T', 'E', 'C', 'H', 'A', 'R', ' ', '\'', '\'', '\''],
      ['W', 'R', 'I', 'T', 'E', 'S', 'T', 'R', 'I', 'N', 'G', ' ', '"', '\\', ';', '"']] =
        some [0x0000000000270003#64, 0x00000000005C0003#64, 0x00000000003B0003#64] := by decide

/-- `SENDCMD 256`: an operand that does not fit is refused, not wrapped. -/
theorem test_asm_refuses :
    assembleChars ['S', 'E', 'N', 'D', 'C', 'M', 'D', ' ', '2', '5', '6'] = none := by decide

/-! ## Framebuffer commands -/

/-- V-BIT: `A5` with bit 7. -/
theorem test_pixelOp :
    pixelOp 0xA5#8 7 .set = 0xA5#8 ∧ pixelOp 0xA5#8 7 .clear = 0x25#8 ∧ pixelOp 0xA5#8 7 .toggle = 0x25#8 := by decide

/-- V-PIX: `SETPIXEL 200, 100, SET` sets FB[584] to 10. -/
theorem test_setPixel_wraps :
    seen State.fb (exec (.setPixel 200#8 100#8 .set) base) = some [(584, 0x10#8)] := by decide

/-- W3: `SETPIXEL 3, 9, TOGGLE` from FB[131] = 5A gives 58. -/
theorem test_setPixel_toggle :
    seen State.fb (exec (.setPixel 3#8 9#8 .toggle) (withCells [(131, 0x5A#8)])) = some [(131, 0x58#8)] := by decide

/-- V-PIX: with FB[131] = 02, `GETPIXEL 131, 73` gives 01. -/
theorem test_getPixel_wraps :
    seen State.result (exec (.getPixel 131#8 73#8) (withCells [(131, 0x02#8)])) = some 0x01#8 := by decide

/-- V-PIX: with FB[131] = 02, `GETPIXEL 3, 8` gives 00. -/
theorem test_getPixel_zero :
    seen State.result (exec (.getPixel 3#8 8#8) (withCells [(131, 0x02#8)])) = some 0x00#8 := by decide

/-- V-CHR: at 1024 with NOADV, FB scrolls, the glyph goes to 896 and CURSOR is 896. -/
theorem test_writeChar_at_end :
    seen (fun t => (t.fb.read 0, t.fb.read 896, t.fb.read 903, t.cursor))
      (exec (.writeChar 0x41#8 true) { withCells [(128, 0x02#8)] with cursor := 1024#16 }) =
        some (0x02#8, 0x41#8, 0x48#8, 896#16) := by decide +kernel

/-- V-CHR: at 1017 it faults, and FB and CURSOR are unchanged. -/
theorem test_writeChar_oob :
    seen (fun t => (t.fb, t.cursor, t.fault, t.faultCmd)) (exec (.writeChar 0x41#8 false) (atCursor 1017#16)) =
      some ([], 1017#16, 0x04#8, 0x0000000000410003#64) := by decide

/-- V-SCR: FB[128] moves to FB[0], and FB[0] is gone. -/
theorem test_scroll :
    seen State.fb (exec .scroll (withCells [(0, 0x01#8), (128, 0x55#8), (1023, 0xFF#8)])) =
      some [(0, 0x55#8), (895, 0xFF#8)] := by decide

/-- V-SCR: with SCROLL_CURSOR = LastRow, CURSOR 1016 becomes 896. -/
theorem test_scroll_lastRow :
    seen State.cursor (exec .scroll { atCursor 1016#16 with cfg := { testCfg with scrollCursor := .lastRow } }) =
      some 896#16 := by decide

/-- V-CUR: (7, 16) gives 1024. -/
theorem test_setCursor_mark : seen State.cursor (exec (.setCursor 7#8 16#8) base) = some 1024#16 := by decide

/-- V-CUR: (255, 255) gives 34680. -/
theorem test_setCursor_max : seen State.cursor (exec (.setCursor 255#8 255#8) base) = some 34680#16 := by decide

/-- V-CLR: FB and CURSOR are 0, RESULT is unchanged. -/
theorem test_clear :
    seen (fun t => (t.fb, t.cursor, t.result))
      (exec .clear { withCells [(7, 0xAA#8)] with cursor := 0x1234#16, result := 0x01#8 }) =
        some ([], 0#16, 0x01#8) := by decide

/-! ## Lines -/

/-- V-LIN: (0,0)→(3,7). -/
theorem test_drawLine_steep :
    seen State.fb (exec (.drawLine 0#8 0#8 3#8 7#8 .set) base) =
      some [(0, 0x03#8), (1, 0x0C#8), (2, 0x30#8), (3, 0xC0#8)] := by decide +kernel

/-- V-LIN: (1,2)→(0,0) differs from (0,0)→(1,2) (R114 case 5), and no line register is left. -/
theorem test_drawLine_back :
    seen (fun t => (t.fb, t.line)) (exec (.drawLine 1#8 2#8 0#8 0#8 .set) base) =
      some ([(0, 0x03#8), (1, 0x04#8)], none) := by decide

/-! ## Bus commands -/

/-- V-BUS: SENDCMD 0xAE, NACK on the control byte. -/
theorem test_sendCmd_nack :
    seen (fun t => (t.trace, t.result)) (exec (.sendCmd 0xAE#8) (answering [.ack, .nack])) =
      some ([.start, .wr 0x78#8 .ack, .wr 0x00#8 .nack, .stop], 0x00#8) := by decide

/-- V-BUS: SENDCMD 0xAE, STALL on some byte: no outcome. -/
theorem test_sendCmd_stall : isStuck (exec (.sendCmd 0xAE#8) (answering [.ack, .ack, .stall])) = true := by decide

/-- V-BUS: SENDDATA 0xFF, all ACK. -/
theorem test_sendData :
    seen (fun t => (t.trace, t.result)) (exec (.sendData 0xFF#8) base) =
      some ([.start, .wr 0x78#8 .ack, .wr 0x40#8 .ack, .wr 0xFF#8 .ack, .stop], 0x01#8) := by decide

/-- V-BUS: SETBRIGHTNESS 0x7F, NACK on the first address. -/
theorem test_setBrightness :
    seen (fun t => (t.trace, t.result)) (exec (.setBrightness 0x7F#8) (answering [.nack])) =
      some ([.start, .wr 0x78#8 .nack, .stop, .start, .wr 0x78#8 .ack, .wr 0x00#8 .ack, .wr 0x7F#8 .ack, .stop],
        0x01#8) := by decide

/-- R142: SLEEP sends 0xAE. -/
theorem test_sleep :
    seen State.trace (exec .sleep base) =
      some [.start, .wr 0x78#8 .ack, .wr 0x00#8 .ack, .wr 0xAE#8 .ack, .stop] := by decide

/-- R143: WAKE sends 0xAF. -/
theorem test_wake :
    seen State.trace (exec .wake base) =
      some [.start, .wr 0x78#8 .ack, .wr 0x00#8 .ack, .wr 0xAF#8 .ack, .stop] := by decide

/-- R144: TURNOFF sends 0xAE; NACK on the payload gives RESULT 00. -/
theorem test_turnOff :
    seen (fun t => (t.trace, t.result)) (exec .turnOff (answering [.ack, .ack, .nack])) =
      some ([.start, .wr 0x78#8 .ack, .wr 0x00#8 .ack, .wr 0xAE#8 .nack, .stop], 0x00#8) := by decide

/-- R145: TURNON sends 0xAF. -/
theorem test_turnOn :
    seen State.trace (exec .turnOn base) =
      some [.start, .wr 0x78#8 .ack, .wr 0x00#8 .ack, .wr 0xAF#8 .ack, .stop] := by decide

/-- V-BUS: INIT, NACK on i3. -/
theorem test_init :
    seen (fun t => (t.trace, t.result)) (exec .init (answering [.ack, .ack, .ack, .ack, .ack, .nack])) =
      some ([.start, .wr 0x78#8 .ack, .wr 0x00#8 .ack, .wr 0xE0#8 .ack, .wr 0xE1#8 .ack, .wr 0xE2#8 .ack,
        .wr 0xE3#8 .nack, .stop], 0x00#8) := by decide

/-- V-BUS, with FB[0] = 01: REFRESH, NACK on the first preamble address and on the second bulk byte (as P5). -/
theorem test_refresh :
    seen (fun t => (t.trace, t.result))
      (exec .refresh { answering [.nack, .ack, .ack, .ack, .ack, .ack, .ack, .ack, .ack, .ack, .nack] with
        fb := [(0, 0x01#8)] }) =
      some ([.start, .wr 0x78#8 .nack, .stop, .start, .wr 0x78#8 .ack, .wr 0x00#8 .ack, .wr 0x00#8 .ack, .stop,
        .start, .wr 0x78#8 .ack, .wr 0x00#8 .ack, .wr 0x10#8 .ack, .stop,
        .start, .wr 0x78#8 .ack, .wr 0x40#8 .ack, .wr 0x01#8 .ack, .wr 0x00#8 .nack, .stop], 0x00#8) := by decide +kernel

/-! ## The port -/

/-- V-FLT: the all-zero word from FAULT = 0. -/
theorem test_step_illegal :
    seen (fun t => (t.fault, t.faultCmd, t.reply)) (step (base.withFetchWord 64 0)) =
      some (0x01#8, 0#64, some (.fault 0x01#8 0#64)) := by decide

/-- V-FLT: CLEAR while FAULT = 04 is answered Halted and changes nothing. -/
theorem test_step_halted :
    seen (fun t => (t.fb, t.fault, t.faultCmd, t.reply))
      (step ({ withCells [(5, 0x80#8)] with fault := 0x04#8, faultCmd := 0x420003#64 }.withFetchWord 64 0x06)) =
        some ([(5, 0x80#8)], 0x04#8, 0x420003#64, some .halted) := by decide

/-- A word at the port is executed, and the port answers Ok: `SETCURSOR 7, 15`. -/
theorem test_step_ok :
    seen (fun t => (t.cursor, t.reply, t.port)) (step (base.withFetchWord 64 0x0F070005)) =
      some (1016#16, some .ok, []) := by decide

/-- R28: STATUS.HALTED, as at the end of P4. -/
theorem test_status_halted :
    seen State.reply (step { awaiting [.readStatus 4] with fault := 0x04#8 }) = some (some (.status 1#64)) := by decide

/-- A draw like P1's: FB = AA everywhere, CURSOR = 0x1234. -/
def testDraw : ResetDraw := { fb := Vector.replicate 1024 0xAA#8, cursor := 0x1234#16, allocFails := false }

/-- R190, P1: after a reset FB and CURSOR are the draw's, and the halt is gone. -/
theorem test_reset_draw :
    seen (fun t => (t.fb.read 1023, t.cursor, t.fault)) (step { awaiting [.reset testDraw] with fault := 0x04#8 }) =
      some (0xAA#8, 0x1234#16, 0x00#8) := by decide +kernel

/-- R192: with ALLOC_MAY_FAIL a reset may end in ALLOC_FAIL. -/
theorem test_reset_allocFail :
    seen (fun t => (t.fault, t.faultCmd))
      (step { awaiting [.reset { testDraw with allocFails := true }] with cfg := { testCfg with allocMayFail := true } }) =
      some (0x05#8, 0#64) := by decide +kernel

/-! ## What the program has written since the last reset (R189, R193) -/

/-- A reset alone writes nothing: neither premise holds after it. -/
theorem test_defined_reset (d : ResetDraw) :
    ¬FbDefined 1 (awaiting [.reset d]) ∧ ¬CursorDefined 1 (awaiting [.reset d]) :=
  ⟨fun h => absurd (h 0 (by decide)) (by show ¬(Given.nothing.fb.read 0 = 0xFF#8); decide), Bool.noConfusion⟩

/-- `WRITECHAR 'A'`, then CLEAR, from CURSOR 0: CLEAR runs, and both premises hold. -/
theorem test_defined_clear :
    FbDefined 2 (awaiting [.submit 0x410003#64, .submit 0x06#64]) ∧
      CursorDefined 2 (awaiting [.submit 0x410003#64, .submit 0x06#64]) := by
  have h : givenAfter 2 (awaiting [.submit 0x410003#64, .submit 0x06#64]) = { fb := giveAll, cursor := true } := rfl
  exact ⟨fun a ha => by rw [h]; exact read_giveAll ha, by rw [CursorDefined, h]⟩

/-- The same words from CURSOR 0x1234: WRITECHAR halts FBC, CLEAR does not run, and neither premise holds. -/
theorem test_defined_halted :
    givenAfter 2 { awaiting [.submit 0x410003#64, .submit 0x06#64] with cursor := 0x1234#16 } = Given.nothing := rfl

/-- R193: Set and Clear give their bit, Toggle does not; `SETPIXEL 3, 9`. -/
theorem test_given_setPixel :
    (Given.nothing.afterCommand (.setPixel 3#8 9#8 .clear) base).fb = [(131, 0x02#8)] ∧
      (Given.nothing.afterCommand (.setPixel 3#8 9#8 .toggle) base).fb = [] := by decide

/-- R84, R85: what WRITECHAR's scroll and glyph write from CURSOR 1024, none of it given before. -/
theorem test_given_writeChar :
    (Given.nothing.afterCommand (.writeChar 0x41#8 false) (atCursor 1024#16)).fb =
      (List.range' 896 128).map fun a => (a, 0xFF#8) := by decide +kernel

/-- R136: 0x78 is the 7-bit address 0x3C with the read/write bit 0. -/
theorem test_devAddr : testCfg.devAddr = 0x78#8 ∧ testCfg.devAddr7 = 0x3C#7 := by decide

/-! ## States that meet the hypotheses of the statements

One theorem a statement (several share one where their hypotheses are the same), at boundary values of each clause. -/

theorem witness_DecodeAfterEncode : (Instr.drawLine 255#8 0#8 255#8 255#8 .toggle).wellFormed = true := by decide

theorem witness_EncodeAfterDecode : decode 0x0000FFFFFFFF0210#64 = .ok (.drawLine 0xFF#8 0xFF#8 0xFF#8 0xFF#8 .toggle) := by
  decide

theorem witness_DecodeFollowsTheOpcodeTable :
    decode 0xFFFF00000000FF28#64 = .error .reservedField ∧ decode 0x0000FFFFFFFF0310#64 = .error .illegalMode ∧
      decode 0x0000000000FF0103#64 = .ok (.writeChar 0xFF#8 true) := by decide

theorem witness_PixelMapIsABijection :
    pixAddr 127 63 = 1023 ∧ pixBit 63 = 7 ∧ pixAddr 0 0 = 0 ∧ pixBit 0 = 0 := by decide

/-- A canonical FB with bytes at both ends: SetPixelChangesOneByte, GetAfterSetReadsTheMode, ToggleTwiceRestores,
PlotsCommuteAndSettle, ScrollMovesEveryRowUp, DrawLineChangesExactlyItsPixels. -/
theorem witness_fb_canonical : (withCells [(0, 0x01#8), (1023, 0x80#8)]).fb.wf = true := by decide

theorem witness_PlotsCommuteAndSettle :
    (127 : Nat) % 128 ≠ 255 % 128 ∨ (63 : Nat) % 64 ≠ (64 : Nat) % 64 := by decide

theorem witness_WriteCharFollowsItsRule_fault :
    (atCursor 1017#16).cursor.toNat ≠ 1024 ∧ 1016 < (atCursor 1017#16).cursor.toNat ∧
      (atCursor 65535#16).cursor.toNat ≠ 1024 ∧ 1016 < (atCursor 65535#16).cursor.toNat := by decide

theorem witness_WriteCharFollowsItsRule_end :
    (atCursor 1024#16).fb.wf = true ∧ (atCursor 1024#16).cursor.toNat = 1024 := by decide

theorem witness_WriteCharFollowsItsRule_cell :
    (atCursor 1016#16).fb.wf = true ∧ (atCursor 1016#16).cursor.toNat ≤ 1016 ∧
      (atCursor 0#16).fb.wf = true ∧ (atCursor 0#16).cursor.toNat ≤ 1016 := by decide

/-- WriteCharKeepsTheCursorInRange and WriteStringRunsToItsEnd, at each clause of CursorInRange. -/
theorem witness_CursorInRange :
    (atCursor 0#16).CursorInRange ∧ (atCursor 1016#16).CursorInRange ∧ (atCursor 1024#16).CursorInRange := by decide

theorem witness_TwoGlyphsLeaveNoGap :
    (atCursor 1008#16).fb.wf = true ∧ (atCursor 1008#16).cursor.toNat % 8 = 0 ∧
      (atCursor 1008#16).cursor.toNat ≤ 1008 := by decide

/-- ClearDefinesFbAndCursor's first clause, after a step that was something else. -/
theorem witness_ClearDefinesFbAndCursor :
    runSteps 1 (awaiting [.readStatus 1, .submit 0x06#64]) =
        .next ((awaiting [.submit 0x06#64]).withReply (.status 0#64)) ∧
      ((awaiting [.submit 0x06#64]).withReply (.status 0#64)).Idle ∧
      ((awaiting [.submit 0x06#64]).withReply (.status 0#64)).NoFault ∧ encode .clear = 0x06#64 :=
  ⟨rfl, rfl, rfl, by decide⟩

/-- ClearDefinesFbAndCursor's other clauses. -/
theorem witness_SameForEveryDraw :
    testDraw.allocFails = false ∧ (∃ t, runAfterReset testDraw [encode .clear] base = .next t) ∧
      ∃ t, runAfterReset { testDraw with cursor := 0#16 } [encode .clear] base = .next t :=
  ⟨rfl, ⟨_, rfl⟩, ⟨_, rfl⟩⟩

/-- DefinedLastsUntilReset: the premises of its clauses. -/
theorem witness_DefinedLastsUntilReset :
    (∃ t, runSteps 1 (awaiting [.submit 0x05#64, .reset testDraw]) = .next t ∧ t.Idle ∧ t.port = [.reset testDraw]) ∧
      (∃ t, runSteps 1 (awaiting [.submit 0x06#64, .submit 0x0F070005#64]) = .next t ∧ t.Idle ∧ t.NoFault ∧
        t.port = [.submit (encode (.setCursor 7#8 15#8))] ∧ t.cfg.scrollCursor = .unchanged) :=
  ⟨⟨_, rfl, rfl, rfl⟩, ⟨_, rfl, rfl, rfl, rfl, rfl⟩⟩

/-- DefinedLastsUntilReset: both premises hold before the second step. -/
theorem witness_DefinedLastsUntilReset_before :
    FbDefined 1 (awaiting [.submit 0x06#64, .submit 0x0F070005#64]) ∧
      CursorDefined 1 (awaiting [.submit 0x06#64, .submit 0x0F070005#64]) := by
  have h : givenAfter 1 (awaiting [.submit 0x06#64, .submit 0x0F070005#64]) = { fb := giveAll, cursor := true } := rfl
  exact ⟨fun a ha => by rw [h]; exact read_giveAll ha, by rw [CursorDefined, h]⟩

/-- GivenBitsAreTheProgramsOwn: two states that agree on the one given bit, and differ in two others. -/
theorem witness_GivenBitsAreTheProgramsOwn :
    (withCells [(0, 0x03#8)]).fb.wf = true ∧ (withCells [(0, 0x05#8)]).fb.wf = true ∧
      ({ fb := [(0, 0x01#8)], cursor := false } : Given).fb.wf = true ∧
      (∀ a, (withCells [(0, 0x03#8)]).fb.read a &&& Memory.read [(0, 0x01#8)] a =
        (withCells [(0, 0x05#8)]).fb.read a &&& Memory.read [(0, 0x01#8)] a) ∧
      (∃ t, exec .scroll (withCells [(0, 0x03#8)]) = .next t) ∧ ∃ t, exec .scroll (withCells [(0, 0x05#8)]) = .next t := by
  refine ⟨by decide, by decide, by decide, fun a => ?_, ⟨_, rfl⟩, ⟨_, rfl⟩⟩
  by_cases h : 0 = a <;> simp [withCells, Memory.read, Memory.unlisted, h]

theorem witness_BusCommandEmitsItsTransactions :
    isBusCommand .sleep = true ∧ ∃ t, exec .sleep (answering [.ack, .nack]) = .next t := ⟨rfl, ⟨_, rfl⟩⟩

theorem witness_BusCommandCompletesWithoutStall :
    isBusCommand .refresh = true ∧ (answering [.ack, .nack, .nack]).oracle.NoStall := by decide

/-- AcknowledgedBusCommandSendsEverything and AcknowledgedEventCounts. -/
theorem witness_AllAck :
    isBusCommand .init = true ∧ base.oracle.AllAck ∧ base.cfg.refreshPreamble.length = 3 := by decide

theorem witness_FailedByteEndsTheTransaction :
    txnsOf (.sendCmd 0xAE#8) base = [[0x78#8, 0x00#8, 0xAE#8]] ∧
      (∀ j, j < 2 → (answering [.ack, .ack, .nack]).oracle.answerAt j = .ack) ∧
      (answering [.ack, .ack, .nack]).oracle.answerAt 2 = .nack ∧ (answering [.nack]).oracle.answerAt 0 = .nack := by
  decide

theorem witness_StalledByteLeavesNoOutcome :
    5 < ((txnsOf (.setBrightness 0x7F#8) base).map List.length).sum ∧
      (∀ j, j < 5 → (answering [.ack, .ack, .ack, .ack, .ack, .stall]).oracle.answerAt j = .ack) ∧
      (answering [.ack, .ack, .ack, .ack, .ack, .stall]).oracle.answerAt 5 = .stall ∧
      (answering [.stall]).oracle.answerAt 0 = .stall := by decide

theorem witness_SetBrightnessHidesAFailedSelector :
    (answering [.nack]).oracle.placed = [.nack] ∧ Oracle.AllAck { (answering [.nack]).oracle with placed := [] } := by
  decide

theorem witness_StepRunsTheDecodedCommand :
    (awaiting [.submit 0x06#64]).Idle ∧ (awaiting [.submit 0x06#64]).NoFault ∧ decode 0x06#64 = .ok .clear ∧
      ∃ t, exec .clear ((awaiting [.submit 0x06#64]).withPort []) = .next t := ⟨rfl, rfl, rfl, ⟨_, rfl⟩⟩

theorem witness_StepRunsTheDecodedCommand_stuck :
    (answering [.stall]).Idle ∧ exec .sleep (answering [.stall]) = .fault .busStalled := ⟨rfl, rfl⟩

theorem witness_UndecodableWordFaults :
    (awaiting [.submit 0x07#64]).Idle ∧ (awaiting [.submit 0x07#64]).NoFault ∧
      decode 0x07#64 = .error .illegalOpcode := by decide

/-- HaltedWordChangesNothing and HaltLastsUntilReset. -/
theorem witness_halted :
    ({ awaiting [.submit 0x06#64, .readStatus 1] with fault := 0x04#8 } : State).Idle ∧
      (0x04#8 : Byte) ≠ 0x00#8 ∧
      ∃ t, runSteps 2 { awaiting [.submit 0x06#64, .readStatus 1] with fault := 0x04#8 } = .next t :=
  ⟨rfl, by decide, ⟨_, rfl⟩⟩

theorem witness_halted_no_reset (d : ResetDraw) :
    .reset d ∉ (awaiting [.submit 0x06#64, .readStatus 1]).port := by simp [awaiting]

theorem witness_OnlyWriteCharFaultsAfterDecode :
    (∃ t, exec .clear base = .next t) ∧ ∃ t, exec (.writeChar 0x41#8 false) (atCursor 1025#16) = .next t :=
  ⟨⟨_, rfl⟩, ⟨_, rfl⟩⟩

theorem witness_StatusPortReadsTheRegisters :
    (awaiting [.readStatus 5]).Idle ∧ (awaiting [.readStatus 0]).Idle := by decide

theorem witness_ResetTakesTheDraw : (awaiting [.reset testDraw]).Idle ∧ (awaiting [.reset testDraw]).port = [.reset testDraw] :=
  ⟨rfl, rfl⟩

theorem witness_PortServesOnlyBetweenCommands :
    base.port = [] ∧ ¬({ awaiting [.readStatus 0] with bus := { phase := .addr, pidx := 0, ackr := .nack } } : State).Idle := by
  decide

theorem witness_RegistersHaveTheirWriters :
    seen State.fb (exec (.setPixel 0#8 0#8 .set) base) ≠ some base.fb ∧
      seen State.cursor (exec (.setCursor 1#8 2#8) base) ≠ some base.cursor ∧
      seen State.result (exec .sleep base) ≠ some base.result ∧ seen State.trace (exec .sleep base) ≠ some base.trace := by
  decide

/-- A state with a non-empty FB and a whole transaction in its trace. -/
def busy : State :=
  { withCells [(131, 0x02#8)] with
    result := 0x01#8
    trace := [.start, .wr 0x78#8 .ack, .wr 0x00#8 .ack, .wr 0xAE#8 .ack, .stop] }

theorem witness_EveryStepKeepsTheInvariant : busy.Inv ∧ ∃ t, step (busy.withFetchWord 64 0x24) = .next t :=
  ⟨⟨rfl, Or.inr rfl, by decide, by decide, by decide, rfl, by decide⟩, ⟨_, rfl⟩⟩

/-- EveryStepKeepsTheTraceFramed and NoStepChangesTheConfiguration. -/
theorem witness_framed : framed busy.cfg.devAddr busy.trace = true ∧ ∃ t, step (busy.withFetchWord 64 0x24) = .next t :=
  ⟨rfl, ⟨_, rfl⟩⟩

end Sys2Proof.Tests
end

section
/-! SUPPORT. The machine between commands (spec/10_state.md): what a transaction, a command and a step can do to the
registers, said once each, and from them the invariant, the writers of the registers, the fixed configuration and the
status reads. -/

namespace Sys2Proof.Machine

/-! ## What a transaction leaves in PIDX (R30) -/

theorem sendPayload_pidx_le {p : List Byte} {s t : State} (h : sendPayload p s = some t) :
    t.bus.pidx ≤ s.bus.pidx + p.length := by
  induction p generalizing s with
  | nil => obtain rfl := Option.some.inj h; exact Nat.le_refl _
  | cons b bs ih =>
    unfold sendPayload at h
    split at h
    · exact absurd h (by simp)
    · next u hu =>
      obtain ⟨_, _, _, _, _, hpidx⟩ := busWrite_spec hu
      split at h
      · have hle := ih h
        simp only [State.withBus_bus, hpidx, List.length_cons] at hle ⊢
        omega
      · obtain rfl := Option.some.inj h
        simp only [State.withBus_bus, hpidx, List.length_cons]
        omega

theorem sendCtrl_pidx_le {ctrl : Byte} {p : List Byte} {s t : State} (h : sendCtrl ctrl p s = some t) :
    t.bus.pidx ≤ max s.bus.pidx p.length := by
  unfold sendCtrl at h
  split at h
  · exact absurd h (by simp)
  · next u hu =>
    obtain ⟨_, _, _, _, _, hpidx⟩ := busWrite_spec hu
    split at h
    · have hle := sendPayload_pidx_le h
      simp only [State.withBus_bus] at hle
      omega
    · obtain rfl := Option.some.inj h
      omega

theorem sendAddr_pidx_le {ctrl : Byte} {p : List Byte} {s t : State} (h : sendAddr ctrl p s = some t) :
    t.bus.pidx ≤ max s.bus.pidx p.length := by
  unfold sendAddr at h
  split at h
  · exact absurd h (by simp)
  · next u hu =>
    obtain ⟨_, _, _, _, _, hpidx⟩ := busWrite_spec hu
    split at h
    · simpa only [State.withBus_bus, hpidx] using sendCtrl_pidx_le h
    · obtain rfl := Option.some.inj h
      omega

/-- A transaction leaves in PIDX what it found there or a number of bytes of its own payload. -/
theorem busTxn_pidx_le {ctrl : Byte} {p : List Byte} {s t : State} (h : busTxn ctrl p s = some t) :
    t.bus.pidx ≤ max s.bus.pidx p.length := by
  obtain ⟨u, hu, rfl⟩ := Option.map_eq_some_iff.1 h
  exact (sendAddr_pidx_le hu :)

/-! ## What every transaction keeps, every bus command keeps -/

/-- Every transaction with a payload of at most FB's size keeps `P`. -/
def KeptByTxns (P : State → Prop) : Prop :=
  ∀ (ctrl : Byte) (p : List Byte) (u v : State), p.length ≤ fbSize → busTxn ctrl p u = some v → P u → P v

theorem busOutcome_eq_next {o : Option State} {t : State} : busOutcome o = .next t ↔ o = some t := by
  cases o <;> simp [busOutcome]

section
variable {P : State → Prop} (hP : KeptByTxns P)
include hP

theorem KeptByTxns.commandTxns {cs : List Byte} {s t : State} (h : commandTxns cs s = some t) (hs : P s) : P t := by
  induction cs generalizing s with
  | nil => exact Option.some.inj h ▸ hs
  | cons c cs ih =>
    unfold Machine.commandTxns at h
    split at h
    · exact absurd h (by simp)
    · next u hu => exact ih h (hP _ _ _ _ (by simp : [c].length ≤ fbSize) hu hs)

theorem KeptByTxns.oneByteTxn {ctrl b : Byte} {s t : State} (h : busOutcome (busTxn ctrl [b] s) = .next t) (hs : P s) :
    P t :=
  hP _ _ _ _ (by simp : [b].length ≤ fbSize) (busOutcome_eq_next.1 h) hs

/-- A bus command is its transactions one after another (R138 to R146). -/
theorem KeptByTxns.exec {i : Instr} {s t : State} (hi : isBusCommand i = true) (h : exec i s = .next t) (hs : P s) :
    P t := by
  cases i with
  | sendCmd | sendData | sleep | wake | turnOff | turnOn => exact hP.oneByteTxn h hs
  | refresh =>
    obtain ⟨u, hpre, hbulk⟩ := Option.bind_eq_some_iff.1 (busOutcome_eq_next.1 h)
    exact hP _ _ _ _ (Memory.bytes_length s.fb).le hbulk (hP.commandTxns hpre hs)
  | setBrightness => exact hP.commandTxns (busOutcome_eq_next.1 h) hs
  | init => exact hP _ _ _ _ (by simp [initBytes, fbSize]) (busOutcome_eq_next.1 h) hs
  | setPixel | getPixel | writeChar | scroll | setCursor | clear | drawLine => nomatch hi

end

/-- No bus command changes what no transaction changes (R135, R140). -/
theorem exec_busFrame {i : Instr} {s t : State} (hi : isBusCommand i = true) (h : exec i s = .next t) : BusFrame s t := by
  have hP : KeptByTxns (BusFrame s) := fun _ _ _ _ _ hv hu => by
    obtain ⟨_, _, _, _, _, hframe, _⟩ := busTxn_spec hv
    exact hu.trans hframe
  exact hP.exec hi h (BusFrame.refl s)

/-! ## What the framebuffer commands keep -/

/-- From any FB, canonical or not, the rasterizer's loop changes FB and the line registers only. -/
theorem rasterize_frame (x1 y1 : Int) (mode : Mode) (n : Nat) (s : State) :
    ∃ m r, rasterize x1 y1 mode n s = (s.withFb m).withLine r := by
  induction n generalizing s with
  | zero => exact ⟨s.fb, s.line, rfl⟩
  | succ n ih =>
    unfold rasterize
    split
    · exact ⟨s.fb, s.line, rfl⟩
    · next r _ =>
      split
      · exact ⟨_, none, rfl⟩
      · obtain ⟨m, r', h⟩ := ih ((plot r.x.toNat r.y.toNat mode s).withLine (some (lineNext r)))
        exact ⟨m, r', h⟩

/-- DRAWLINE changes FB, and leaves no line register behind (R31, R111). -/
theorem execDrawLine_frame {x0 y0 x1 y1 : Byte} {mode : Mode} {s t : State}
    (h : exec (.drawLine x0 y0 x1 y1 mode) s = .next t) : ∃ m, t = (s.withFb m).withLine none := by
  obtain ⟨m, r, hr⟩ := rasterize_frame x1.toNat y1.toNat mode lineFuel
    (s.withLine (some (lineSetup x0.toNat y0.toNat x1.toNat y1.toNat)))
  obtain rfl := Host.Outcome.next.inj h
  exact ⟨m, by rw [hr]; rfl⟩

/-- WRITECHAR raises its fault, or changes FB and CURSOR (R84). -/
theorem execWriteChar_frame {code : Byte} {noadv : Bool} {s t : State} (h : exec (.writeChar code noadv) s = .next t) :
    t = raiseFault .cursorOob (encode (.writeChar code noadv)) s ∨ ∃ m c, t = (s.withFb m).withCursor c := by
  obtain rfl := Host.Outcome.next.inj h
  by_cases hoob : cursorOob s.cursor = true
  · exact .inl (if_pos hoob)
  · rw [if_neg hoob, scrollAtEnd]
    cases noadv <;> split_ifs <;> exact .inr ⟨_, _, rfl⟩

/-- SCROLL changes FB, and CURSOR under LastRow only (R85). -/
theorem execScroll_frame {s t : State} (h : exec .scroll s = .next t) :
    ∃ c, t = (s.withFb s.fb.scroll).withCursor c ∧ (s.cfg.scrollCursor = .unchanged → c = s.cursor) := by
  obtain rfl := Host.Outcome.next.inj h
  split
  · exact ⟨s.cursor, rfl, fun _ => rfl⟩
  · next hl => exact ⟨_, rfl, fun hu => by rw [hu] at hl; cases hl⟩

/-- What no framebuffer command changes: TRACE, the bus engine, the configuration, the answers to come and the host's side
of the port. -/
structure FramebufferFrame (s t : State) : Prop where
  trace : t.trace = s.trace
  bus : t.bus = s.bus
  cfg : t.cfg = s.cfg
  oracle : t.oracle = s.oracle
  port : t.port = s.port
  reply : t.reply = s.reply

theorem exec_framebufferFrame {i : Instr} {s t : State} (hi : isBusCommand i = false) (h : exec i s = .next t) :
    FramebufferFrame s t := by
  cases i with
  | setPixel | getPixel | setCursor | clear =>
    obtain rfl := Host.Outcome.next.inj h
    exact ⟨rfl, rfl, rfl, rfl, rfl, rfl⟩
  | writeChar =>
    obtain rfl | ⟨m, c, rfl⟩ := execWriteChar_frame h <;> exact ⟨rfl, rfl, rfl, rfl, rfl, rfl⟩
  | scroll =>
    obtain ⟨c, rfl, _⟩ := execScroll_frame h
    exact ⟨rfl, rfl, rfl, rfl, rfl, rfl⟩
  | drawLine =>
    obtain ⟨m, rfl⟩ := execDrawLine_frame h
    exact ⟨rfl, rfl, rfl, rfl, rfl, rfl⟩
  | sendCmd | sendData | refresh | setBrightness | sleep | wake | turnOff | turnOn | init => nomatch hi

/-- No command changes the configuration (R27). -/
theorem exec_cfg {i : Instr} {s t : State} (h : exec i s = .next t) : t.cfg = s.cfg := by
  cases hi : isBusCommand i with
  | true => exact (exec_busFrame hi h).cfg
  | false => exact (exec_framebufferFrame hi h).cfg

/-! ## The writers of FB, CURSOR and RESULT (R22 to R24) -/

/-- Only the commands that draw, scroll or clear write FB. -/
theorem exec_fb {i : Instr} {s t : State} (h : exec i s = .next t)
    (hi : opcodeOfInstr i ∉ ([.setPixel, .drawLine, .writeChar, .scroll, .clear] : List Opcode)) : t.fb = s.fb := by
  cases i with
  | getPixel | setCursor => obtain rfl := Host.Outcome.next.inj h; rfl
  | sendCmd | sendData | refresh | setBrightness | sleep | wake | turnOff | turnOn | init => exact (exec_busFrame rfl h).fb
  | setPixel | writeChar | scroll | clear | drawLine => simp [opcodeOfInstr] at hi

/-- Only SETCURSOR, WRITECHAR, CLEAR and, under LastRow, SCROLL write CURSOR. -/
theorem exec_cursor {i : Instr} {s t : State} (h : exec i s = .next t)
    (hi : opcodeOfInstr i ∉ ([.setCursor, .writeChar, .clear] : List Opcode))
    (hscroll : ¬(i = .scroll ∧ s.cfg.scrollCursor = .lastRow)) : t.cursor = s.cursor := by
  cases i with
  | setPixel | getPixel => obtain rfl := Host.Outcome.next.inj h; rfl
  | scroll =>
    obtain ⟨c, rfl, hc⟩ := execScroll_frame h
    cases hl : s.cfg.scrollCursor with
    | unchanged => exact hc hl
    | lastRow => exact absurd ⟨rfl, hl⟩ hscroll
  | drawLine => obtain ⟨m, rfl⟩ := execDrawLine_frame h; rfl
  | sendCmd | sendData | refresh | setBrightness | sleep | wake | turnOff | turnOn | init =>
    exact (exec_busFrame rfl h).cursor
  | setCursor | writeChar | clear => simp [opcodeOfInstr] at hi

/-- Only GETPIXEL and the bus commands write RESULT. -/
theorem exec_result {i : Instr} {s t : State} (h : exec i s = .next t) (hi : opcodeOfInstr i ≠ .getPixel)
    (hb : isBusCommand i = false) : t.result = s.result := by
  cases i with
  | setPixel | setCursor | clear => obtain rfl := Host.Outcome.next.inj h; rfl
  | writeChar => obtain rfl | ⟨m, c, rfl⟩ := execWriteChar_frame h <;> rfl
  | scroll => obtain ⟨c, rfl, _⟩ := execScroll_frame h; rfl
  | drawLine => obtain ⟨m, rfl⟩ := execDrawLine_frame h; rfl
  | getPixel => exact absurd rfl hi
  | sendCmd | sendData | refresh | setBrightness | sleep | wake | turnOff | turnOn | init => nomatch hb

/-! ## What a step can do (R180, R187) -/

/-- Between commands the host's next move is served. -/
theorem step_eq_serveMove {s : State} {move : HostMove} {later : List HostMove} (hidle : s.Idle)
    (hport : s.port = move :: later) : step s = serveMove move (s.withPort later) := by
  simp only [step, serveNext, hport, if_pos hidle]

/-- A step does nothing with no move waiting, and otherwise serves the next move between commands. -/
theorem step_eq_next_cases {s t : State} (h : step s = .next t) :
    (s.port = [] ∧ t = s) ∨
      ∃ move later, s.port = move :: later ∧ s.Idle ∧ serveMove move (s.withPort later) = .next t := by
  simp only [step, serveNext] at h
  split at h
  · next hport => exact .inl ⟨hport, (Host.Outcome.next.inj h).symm⟩
  · next move later hport =>
    by_cases hidle : s.Idle
    · exact .inr ⟨move, later, hport, hidle, by rwa [if_pos hidle] at h⟩
    · rw [if_neg hidle] at h
      exact absurd h (by simp)

theorem returnOutcome_eq_next {o : Host.Outcome State Fault Refusal} {t : State} (h : returnOutcome o = .next t) :
    ∃ u, o = .next u ∧ t = answerOutcome u := by
  cases o with
  | next u => exact ⟨u, rfl, (Host.Outcome.next.inj h).symm⟩
  | fault | refused => exact absurd h (by simp [returnOutcome])

theorem halted_eq_false_iff {s : State} : s.halted = false ↔ s.NoFault := by
  simp [State.halted]

/-- A submitted word is answered Halted, faults in decode, or runs its command. -/
theorem submitWord_eq_next_cases {w : CmdWord} {s t : State} (h : submitWord w s = .next t) :
    (s.halted = true ∧ t = s.withReply .halted) ∨
      (s.NoFault ∧ ∃ code, decode w = .error code ∧ t = answerOutcome (raiseFault code w s)) ∨
      (s.NoFault ∧ ∃ i u, decode w = .ok i ∧ exec i s = .next u ∧ t = answerOutcome u) := by
  cases hh : s.halted with
  | true =>
    simp only [submitWord, hh, if_true] at h
    exact .inl ⟨rfl, (Host.Outcome.next.inj h).symm⟩
  | false =>
    have hnf := halted_eq_false_iff.1 hh
    simp only [submitWord, hh] at h
    cases hd : decode w with
    | error code =>
      simp only [hd] at h
      exact .inr (.inl ⟨hnf, code, rfl, (Host.Outcome.next.inj h).symm⟩)
    | ok i =>
      simp only [hd] at h
      obtain ⟨u, hu, ht⟩ := returnOutcome_eq_next h
      exact .inr (.inr ⟨hnf, i, u, rfl, hu, ht⟩)

/-- What the parts of a step keep, the step keeps: the port's own two fields, a fault of decode, a command from a state
with no fault, and a reset. -/
theorem step_keeps {P : State → Prop} (hport : ∀ u p, P u → P (u.withPort p)) (hreply : ∀ u r, P u → P (u.withReply r))
    (hfault : ∀ u w code, decode w = .error code → P u → P (raiseFault code w u))
    (hexec : ∀ u i v, u.NoFault → exec i u = .next v → P u → P v) (hreset : ∀ u d, P u → P (takeReset d u))
    {s t : State} (h : step s = .next t) (hs : P s) : P t := by
  obtain ⟨-, rfl⟩ | ⟨move, later, -, -, hmove⟩ := step_eq_next_cases h
  · exact hs
  · have hs' := hport s later hs
    cases move with
    | submit w =>
      obtain ⟨-, rfl⟩ | ⟨-, code, hd, rfl⟩ | ⟨hnf, i, u, -, hu, rfl⟩ := submitWord_eq_next_cases hmove
      · exact hreply _ _ hs'
      · exact hreply _ _ (hfault _ _ _ hd hs')
      · exact hreply _ _ (hexec _ _ _ hnf hu hs')
    | readStatus number => exact Host.Outcome.next.inj hmove ▸ hreply _ _ hs'
    | reset draw => exact Host.Outcome.next.inj hmove ▸ hreset _ _ hs'

/-! ## The parts of a step keep the invariant -/

theorem idle_iff {s : State} : s.Idle ↔ s.bus.phase = .idle ∧ s.line = none := by
  simp [State.Idle, State.idle]

section
variable {s t : State} (hs : s.Inv)
include hs

theorem State.Inv.withFb {m : Memory} (hm : m.wf = true) : (s.withFb m).Inv :=
  { hs with fbCanonical := hm }

theorem State.Inv.withCursor (v : BitVec 16) : (s.withCursor v).Inv := { hs with }

theorem State.Inv.withResult {v : Byte} (hv : v = 0x00#8 ∨ v = 0x01#8) : (s.withResult v).Inv :=
  { hs with resultBit := hv }

theorem State.Inv.withPort (p : List HostMove) : (s.withPort p).Inv := { hs with }

theorem State.Inv.withReply (r : Reply) : (s.withReply r).Inv := { hs with }

/-- Every fault but a reset's leaves the word in FAULT_CMD (R26). -/
theorem State.Inv.raiseFault {code : FaultCode} (hc : code ≠ .allocFail) (w : CmdWord) :
    (raiseFault code w s).Inv := by
  have hbyte : (faultByte code).toNat ≤ 5 ∧ faultByte code ≠ 0x00#8 ∧ faultByte code ≠ 0x05#8 := by
    cases code with
    | illegalOpcode | reservedField | illegalMode | cursorOob => decide
    | allocFail => exact absurd rfl hc
  obtain ⟨hle, hne0, hne5⟩ := hbyte
  exact { hs with
    faultCode := hle
    faultCmdZero := fun h => (h.elim hne0 hne5).elim
    allocAllowed := fun h => (hne5 h).elim }

theorem State.Inv.plot (x y : Nat) (mode : Mode) : (plot x y mode s).Inv :=
  hs.withFb (Memory.wf_write _ (plotAddr_lt x y) hs.fbCanonical)

theorem State.Inv.scrollFb : (scrollFb s).Inv := hs.withFb (Memory.wf_scroll hs.fbCanonical)

theorem State.Inv.scrollAtEnd : (scrollAtEnd s).Inv := by
  unfold Machine.scrollAtEnd
  split_ifs
  · exact hs.scrollFb.withCursor _
  · exact hs

theorem State.Inv.putGlyph (code : Byte) (hfits : s.cursor.toNat + glyphBytes ≤ fbSize) : (putGlyph code s).Inv :=
  hs.withFb (Memory.wf_writeBytes (by simpa [glyphRead] using hfits) hs.fbCanonical)

theorem State.Inv.advanceCursor (noadv : Bool) : (advanceCursor noadv s).Inv := by
  cases noadv with
  | true => exact hs
  | false => exact hs.withCursor _

/-- DRAWLINE leaves no line register behind, so FBC is idle again (R31). -/
theorem State.Inv.execDrawLine {x0 y0 x1 y1 : Byte} {mode : Mode} (h : execDrawLine x0 y0 x1 y1 mode s = .next t) :
    t.Inv := by
  obtain ⟨m, r, hr, hm⟩ := rasterize_spec x1.toNat y1.toNat mode lineFuel
    (s.withLine (some (lineSetup x0.toNat y0.toNat x1.toNat y1.toNat))) hs.fbCanonical
  obtain rfl := Host.Outcome.next.inj h
  obtain ⟨hphase, -⟩ := idle_iff.1 hs.idle
  rw [hr]
  exact { hs with fbCanonical := hm, idle := idle_iff.2 ⟨hphase, rfl⟩ }

/-- WRITECHAR writes only inside FB, as it faults where its glyph would not fit (R84). -/
theorem State.Inv.execWriteChar {code : Byte} {noadv : Bool} (h : execWriteChar code noadv s = .next t) : t.Inv := by
  obtain rfl := Host.Outcome.next.inj h
  by_cases hoob : cursorOob s.cursor = true
  · rw [if_pos hoob]
    exact hs.raiseFault (by decide) _
  · rw [if_neg hoob]
    exact (hs.scrollAtEnd.putGlyph code (scrollAtEnd_fits (by simpa using hoob))).advanceCursor noadv

theorem State.Inv.execScroll (h : execScroll s = .next t) : t.Inv := by
  obtain rfl := Host.Outcome.next.inj h
  split
  · exact hs.scrollFb
  · exact hs.scrollFb.withCursor _

end

/-- A transaction releases the bus, and its payload bounds PIDX (R30, R133). -/
theorem keptByTxns_inv : KeptByTxns State.Inv := by
  intro ctrl p s t hp h hs
  obtain ⟨_, _, _, hres, hphase, ⟨hfb, -, hfault, hcmd, hline, hcfg, -, -⟩, _⟩ := busTxn_spec h
  obtain ⟨-, hline'⟩ := idle_iff.1 hs.idle
  exact {
    fbCanonical := hfb ▸ hs.fbCanonical
    resultBit := by rw [hres]; cases t.bus.ackr <;> decide
    faultCode := hfault ▸ hs.faultCode
    faultCmdZero := by rw [hfault, hcmd]; exact hs.faultCmdZero
    allocAllowed := by rw [hfault, hcfg]; exact hs.allocAllowed
    idle := idle_iff.2 ⟨hphase, hline.trans hline'⟩
    payloadIndex := (busTxn_pidx_le h).trans (max_le hs.payloadIndex hp) }

/-- Every command keeps the invariant. -/
theorem exec_keeps_inv {i : Instr} {s t : State} (h : exec i s = .next t) (hs : s.Inv) : t.Inv := by
  cases i with
  | setPixel x y mode => exact Host.Outcome.next.inj h ▸ hs.plot _ _ mode
  | getPixel x y =>
    refine Host.Outcome.next.inj h ▸ hs.withResult ?_
    cases pixelBit x.toNat y.toNat s <;> decide
  | writeChar => exact hs.execWriteChar h
  | scroll => exact hs.execScroll h
  | setCursor => exact Host.Outcome.next.inj h ▸ hs.withCursor _
  | clear => exact Host.Outcome.next.inj h ▸ (hs.withFb Memory.wf_zeros).withCursor _
  | drawLine => exact hs.execDrawLine h
  | sendCmd | sendData | refresh | setBrightness | sleep | wake | turnOff | turnOn | init =>
    exact keptByTxns_inv.exec rfl h hs

/-- The faults of decode (R70). -/
theorem decode_eq_error_cases {w : CmdWord} {code : FaultCode} (h : decode w = .error code) :
    code = .illegalOpcode ∨ code = .reservedField ∨ code = .illegalMode := by
  unfold decode at h
  split at h
  · exact .inl (Except.error.inj h).symm
  · split_ifs at h
    · exact .inr (.inl (Except.error.inj h).symm)
    · exact .inr (.inl (Except.error.inj h).symm)
    · split at h
      · exact .inr (.inr (Except.error.inj h).symm)
      · exact absurd h (by simp)

/-- A reset reaches the invariant from any state at all (R190 to R192). -/
theorem takeReset_inv (d : ResetDraw) (s : State) : (takeReset d s).Inv where
  fbCanonical := Memory.wf_ofBytes (by simp)
  resultBit := .inl rfl
  faultCode := by simp only [takeReset, resetFault]; split_ifs <;> decide
  faultCmdZero := fun _ => rfl
  allocAllowed := fun h => by
    simp only [takeReset, resetFault] at h ⊢
    split_ifs at h with hc
    · exact (Bool.and_eq_true_iff.1 hc).1
    · exact absurd h (by decide)
  idle := rfl
  payloadIndex := Nat.zero_le _

/-! ## Status reads (R28) -/

theorem statusByte_of_idle {s : State} (h : s.Idle) : s.statusByte = if s.fault = 0x00#8 then 0x00#8 else 0x01#8 := by
  by_cases hf : s.fault = 0x00#8 <;> simp [State.statusByte, State.halted, hf, if_pos h]

theorem statusValue_result (s : State) : (s.statusValue 0).toNat = s.result.toNat % 2 := by
  have : s.result.toNat % 2 < 2 ^ 64 := by omega
  simp only [State.statusValue, BitVec.toNat_setWidth, BitVec.toNat_and]
  simpa [Nat.and_one_is_mod] using Nat.mod_eq_of_lt this

theorem statusValue_above {n : Nat} (h : 4 < n) (s : State) : s.statusValue n = 0#64 := by
  obtain ⟨k, rfl⟩ := Nat.exists_eq_add_of_le' h
  rfl

end Sys2Proof.Machine

open Sys2Proof Sys2Proof.Machine

/-- Settles O53: each part of a step keeps the invariant, and a reset reaches it from anywhere. -/
theorem everyStepKeepsTheInvariant : Obligations.EveryStepKeepsTheInvariant := by
  intro s t hs h
  refine step_keeps (fun _ p hu => hu.withPort p) (fun _ r hu => hu.withReply r) (fun _ w code hd hu => ?_)
    (fun _ _ _ _ hv hu => exec_keeps_inv hv hu) (fun u d _ => takeReset_inv d u) h hs
  obtain rfl | rfl | rfl := decode_eq_error_cases hd <;> exact hu.raiseFault (by decide) w

/-- Settles O51: a command that is not a writer of a register leaves it as it was. -/
theorem registersHaveTheirWriters : Obligations.RegistersHaveTheirWriters := by
  intro i s t h
  refine ⟨fun hfb => ?_, fun hcursor => ?_, fun hresult => ?_, fun hbus => ?_⟩
  · by_contra hi
    exact hfb (exec_fb h hi)
  · by_contra hi
    obtain ⟨hop, hscroll⟩ := not_or.1 hi
    exact hcursor (exec_cursor h hop hscroll)
  · by_contra hi
    obtain ⟨hop, hb⟩ := not_or.1 hi
    exact hresult (exec_result h hop (by simpa using hb))
  · by_contra hb
    have hframe := exec_framebufferFrame (by simpa using hb) h
    exact hbus.elim (· hframe.trace) (· hframe.oracle)

/-- Settles O55: no part of a step changes the configuration, a reset's included (R190). -/
theorem noStepChangesTheConfiguration : Obligations.NoStepChangesTheConfiguration := by
  intro s t h
  exact step_keeps (P := fun u => u.cfg = s.cfg) (fun _ _ hu => hu) (fun _ _ hu => hu) (fun _ _ _ _ hu => hu)
    (fun _ _ _ _ hv hu => (exec_cfg hv).trans hu) (fun _ _ hu => hu) h rfl

/-- Settles O48: the value of each status number; BUSY reads 0 because the read is served between commands. -/
theorem statusPortReadsTheRegisters : Obligations.StatusPortReadsTheRegisters := by
  intro s number later hidle hport
  refine ⟨s.statusValue number, step_eq_serveMove hidle hport, ?_, ?_, ?_, ?_, ?_, fun h => statusValue_above h s⟩
  · rintro rfl
    exact statusValue_result s
  · rintro rfl
    exact BitVec.toNat_setWidth_of_le (by decide)
  · rintro rfl
    exact BitVec.toNat_setWidth_of_le (by decide)
  · rintro rfl
    rfl
  · rintro rfl
    simp only [State.statusValue, statusByte_of_idle hidle]
    split_ifs <;> rfl

end

section
/-! The pixel map (R40) and its inverse: the address gives back the page and the column, the bit the row in the page. -/

namespace Sys2Proof.Machine

variable {x y x' y' a k : Nat}

theorem pixAddr_lt (hx : x < 128) (hy : y < 64) : pixAddr x y < 1024 := by
  simp only [pixAddr, panelWidth]
  omega

theorem pixAddr_mod (hx : x < 128) : pixAddr x y % 128 = x :=
  (Nat.mul_add_mod' _ _ _).trans (Nat.mod_eq_of_lt hx)

theorem pixAddr_div (hx : x < 128) : pixAddr x y / 128 = y / 8 := by
  simp only [pixAddr, panelWidth]
  omega

/-- Two pixels of one bit are one pixel: the address gives the column and the page, the bit the row in the page. -/
theorem pixel_eq_of_pixAddr_eq (hx : x < 128) (hx' : x' < 128) (haddr : pixAddr x y = pixAddr x' y')
    (hbit : pixBit y = pixBit y') : x = x' ∧ y = y' := by
  have hcolumn : x = x' := by rw [← pixAddr_mod (y := y) hx, haddr, pixAddr_mod hx']
  have hpage : y / 8 = y' / 8 := by rw [← pixAddr_div hx, haddr, pixAddr_div hx']
  have hrow : y % 8 = y' % 8 := hbit
  exact ⟨hcolumn, by omega⟩

/-- The pixel of bit `k` of byte `a`: column `a % 128`, row `k` of page `a / 128`. -/
theorem exists_pixel (ha : a < 1024) (hk : k < 8) :
    ∃ x y, x < 128 ∧ y < 64 ∧ pixAddr x y = a ∧ pixBit y = k := by
  refine ⟨a % 128, a / 128 * 8 + k, Nat.mod_lt _ (by decide), by omega, ?_, ?_⟩
  · simp only [pixAddr, panelWidth]
    omega
  · simp only [pixBit]
    omega

end Sys2Proof.Machine

open Sys2Proof Sys2Proof.Machine

/-- Settles O9: the map's formula and bounds, and its inverse on the bits of FB. -/
theorem pixelMapIsABijection : Obligations.PixelMapIsABijection := by
  refine ⟨fun x y hx hy => ⟨rfl, pixAddr_lt hx hy, rfl, pixBit_lt y⟩, ?_, fun _ _ => exists_pixel, fun _ _ _ => rfl⟩
  exact fun _ _ _ _ hx _ hx' _ => pixel_eq_of_pixAddr_eq hx hx'

end

section
/-! SUPPORT. Decoding and encoding (spec/30_encoding.md): a word is its seven fields, decode's four answers, the rows of
the opcode table, and the lines of the assembler. -/

namespace Sys2Proof

/-! ## A word is its fields (R61) -/

/-- The seven fields of R61 cover the word. -/
theorem CmdWord.toNat_eq_sum (w : CmdWord) :
    w.toNat = w.rsv.toNat * 2 ^ 48 + w.d.toNat * 2 ^ 40 + w.c.toNat * 2 ^ 32 + w.b.toNat * 2 ^ 24 +
      w.a.toNat * 2 ^ 16 + w.modifier.toNat * 2 ^ 8 + w.opc.toNat := by
  have hw := w.isLt
  simp only [rsv, d, c, b, a, modifier, opc, BitVec.extractLsb'_toNat, Nat.shiftRight_eq_div_pow]
  omega

theorem CmdWord.ext_iff_fields {w v : CmdWord} :
    w = v ↔ w.opc = v.opc ∧ w.modifier = v.modifier ∧ w.a = v.a ∧ w.b = v.b ∧ w.c = v.c ∧ w.d = v.d ∧
      w.rsv = v.rsv := by
  refine ⟨fun h => by simp [h], fun ⟨ho, hm, ha, hb, hc, hd, hr⟩ => BitVec.eq_of_toNat_eq ?_⟩
  rw [w.toNat_eq_sum, v.toNat_eq_sum, ho, hm, ha, hb, hc, hd, hr]

/-- R72's word is `w` when it has the fields of `w`. -/
theorem wordOfFields_eq_iff {opc modifier a b c d : Byte} {w : CmdWord} :
    wordOfFields opc modifier a b c d = w ↔
      opc = w.opc ∧ modifier = w.modifier ∧ a = w.a ∧ b = w.b ∧ c = w.c ∧ d = w.d ∧ 0#16 = w.rsv := by
  simp [CmdWord.ext_iff_fields]

/-! ## The two fields inside MOD (R63, R66) -/

/-- Bits of the word inside MOD are bits of MOD. -/
theorem CmdWord.extract_modifier (w : CmdWord) {start len : Nat} (h : start + len ≤ 8) :
    w.extractLsb' (8 + start) len = w.modifier.extractLsb' start len := by
  refine BitVec.eq_of_getLsbD_eq fun i hi => ?_
  simp [modifier, hi, show start + i < 8 by omega, Nat.add_assoc]

/-- A byte is its bits below `k` and its bits from `k` on. -/
theorem byte_eq_iff_low_high (k : Nat) {x y : Byte} :
    x = y ↔ x.extractLsb' 0 k = y.extractLsb' 0 k ∧ x.extractLsb' k (8 - k) = y.extractLsb' k (8 - k) := by
  refine ⟨fun h => by simp [h], fun ⟨hlow, hhigh⟩ => BitVec.eq_of_getLsbD_eq fun i hi => ?_⟩
  rcases lt_or_ge i k with hik | hik
  · simpa [hik] using congrArg (BitVec.getLsbD · i) hlow
  · simpa [show i - k < 8 - k by omega, Nat.add_sub_cancel' hik] using congrArg (BitVec.getLsbD · (i - k)) hhigh

theorem modeOf_eq_some_iff {bits : BitVec 2} {mode : Mode} :
    modeOf bits = some mode ↔ (modeByte mode).extractLsb' 0 2 = bits := by
  revert bits
  cases mode <;> decide

theorem modeOf_eq_none_iff {bits : BitVec 2} : modeOf bits = none ↔ bits = 3#2 := by
  revert bits
  decide

theorem noadvByte_bit {bit : BitVec 1} : (noadvByte (bit == 1#1)).extractLsb' 0 1 = bit := by
  revert bit
  decide

/-! ## The match and mask of a format (R63, R70) -/

section

variable (w v : CmdWord)

@[simp] theorem CmdWord.opc_and : CmdWord.opc (w &&& v) = w.opc &&& v.opc := BitVec.extractLsb'_and
@[simp] theorem CmdWord.modifier_and : CmdWord.modifier (w &&& v) = w.modifier &&& v.modifier := BitVec.extractLsb'_and
@[simp] theorem CmdWord.a_and : CmdWord.a (w &&& v) = w.a &&& v.a := BitVec.extractLsb'_and
@[simp] theorem CmdWord.b_and : CmdWord.b (w &&& v) = w.b &&& v.b := BitVec.extractLsb'_and
@[simp] theorem CmdWord.c_and : CmdWord.c (w &&& v) = w.c &&& v.c := BitVec.extractLsb'_and
@[simp] theorem CmdWord.d_and : CmdWord.d (w &&& v) = w.d &&& v.d := BitVec.extractLsb'_and
@[simp] theorem CmdWord.rsv_and : CmdWord.rsv (w &&& v) = w.rsv &&& v.rsv := BitVec.extractLsb'_and

end

/-- `BitVec.and_allOnes` at the literal that a field of a mask reads as. -/
@[simp] theorem byte_and_0xFF (x : Byte) : x &&& 0xFF#8 = x := BitVec.and_allOnes

theorem CmdWord.modifier_and_0xFC {w : CmdWord} : w.modifier &&& 0xFC#8 = 0#8 ↔ w.extractLsb' 10 6 = 0#6 := by
  have hall : w.modifier.extractLsb' 2 6 &&& 63#6 = w.modifier.extractLsb' 2 6 := BitVec.and_allOnes
  rw [byte_eq_iff_low_high 2, w.extract_modifier (start := 2) (by omega)]
  simp [BitVec.extractLsb'_and, hall]

theorem CmdWord.modifier_and_0xFE {w : CmdWord} : w.modifier &&& 0xFE#8 = 0#8 ↔ w.extractLsb' 9 7 = 0#7 := by
  have hall : w.modifier.extractLsb' 1 7 &&& 127#7 = w.modifier.extractLsb' 1 7 := BitVec.and_allOnes
  rw [byte_eq_iff_low_high 1, w.extract_modifier (start := 1) (by omega)]
  simp [BitVec.extractLsb'_and, hall]

/-- The mask of a format's rows: the bits that R63 fixes. -/
def formatMask : Format → CmdWord
  | .N => 0xFFFFFFFFFFFFFFFF#64
  | .P => 0xFFFFFFFF0000FCFF#64
  | .Q => 0xFFFFFFFF0000FFFF#64
  | .L => 0xFFFF00000000FCFF#64
  | .G => 0xFFFFFFFFFF00FEFF#64
  | .K => 0xFFFFFFFF0000FFFF#64
  | .Y => 0xFFFFFFFFFF00FFFF#64

/-- The bits of the five operand fields that the given masks select are 0. -/
def CmdWord.MaskedZero (w : CmdWord) (modifier a b c d : Byte) : Prop :=
  w.modifier &&& modifier = 0#8 ∧ w.a &&& a = 0#8 ∧ w.b &&& b = 0#8 ∧ w.c &&& c = 0#8 ∧ w.d &&& d = 0#8

/-- R63's fields that must be 0 are those that the format's mask covers. -/
theorem maskedZero_formatMask_iff (f : Format) (w : CmdWord) :
    w.MaskedZero (formatMask f).modifier (formatMask f).a (formatMask f).b (formatMask f).c (formatMask f).d ↔
      formatFieldsZero f w = true := by
  cases f with
  | N =>
    change w.MaskedZero 0xFF#8 0xFF#8 0xFF#8 0xFF#8 0xFF#8 ↔ _
    simp [CmdWord.MaskedZero, formatFieldsZero, and_assoc]
  | P =>
    change w.MaskedZero 0xFC#8 0#8 0#8 0xFF#8 0xFF#8 ↔ _
    simp [CmdWord.MaskedZero, formatFieldsZero, CmdWord.modifier_and_0xFC, and_assoc]
  | Q | K =>
    change w.MaskedZero 0xFF#8 0#8 0#8 0xFF#8 0xFF#8 ↔ _
    simp [CmdWord.MaskedZero, formatFieldsZero, and_assoc]
  | L =>
    change w.MaskedZero 0xFC#8 0#8 0#8 0#8 0#8 ↔ _
    simp [CmdWord.MaskedZero, formatFieldsZero, CmdWord.modifier_and_0xFC]
  | G =>
    change w.MaskedZero 0xFE#8 0#8 0xFF#8 0xFF#8 0xFF#8 ↔ _
    simp [CmdWord.MaskedZero, formatFieldsZero, CmdWord.modifier_and_0xFE, and_assoc]
  | Y =>
    change w.MaskedZero 0xFF#8 0#8 0xFF#8 0xFF#8 0xFF#8 ↔ _
    simp [CmdWord.MaskedZero, formatFieldsZero, and_assoc]

/-! ## The opcode table (R64, R65, R68) -/

/-- R65: RSV and every field that the row's format does not list are 0. -/
def ReservedZero (op : Opcode) (w : CmdWord) : Prop :=
  w.rsv = 0#16 ∧ formatFieldsZero (opcodeFormat op) w = true

/-- The formats whose MOD holds a mode (R63). -/
def formatHasMode : Format → Bool
  | .P | .L => true
  | .N | .Q | .G | .K | .Y => false

/-- The row of the table that an opcode's OPC and format give. -/
def tableRow (op : Opcode) : CmdWord × CmdWord × Bool :=
  ((opcodeByte op).setWidth 64, formatMask (opcodeFormat op), formatHasMode (opcodeFormat op))

theorem opcodeTable_eq_map : Machine.opcodeTable = opcodeRows.map tableRow := rfl

theorem mem_opcodeTable_iff {row : CmdWord × CmdWord × Bool} :
    row ∈ Machine.opcodeTable ↔ ∃ op, tableRow op = row := by
  simp [opcodeTable_eq_map, mem_opcodeRows]

theorem opc_tableRow (op : Opcode) : (tableRow op).1.opc = opcodeByte op := by
  cases op <;> rfl

/-- A word matches a row under its mask when it has the row's OPC and no reserved bit set. -/
theorem matches_tableRow_iff {op : Opcode} {w : CmdWord} :
    w &&& (tableRow op).2.1 = (tableRow op).1 ↔ w.opc = opcodeByte op ∧ ReservedZero op w := by
  have hopc : (formatMask (opcodeFormat op)).opc = 0xFF#8 := by cases op <;> rfl
  have hrsv : w.rsv &&& (formatMask (opcodeFormat op)).rsv = w.rsv := by cases op <;> exact BitVec.and_allOnes
  have hmatch : (tableRow op).1 = wordOfFields (opcodeByte op) 0#8 0#8 0#8 0#8 0#8 := by cases op <;> rfl
  rw [ReservedZero, ← maskedZero_formatMask_iff, CmdWord.ext_iff_fields, hmatch]
  simp [hopc, hrsv, CmdWord.MaskedZero, tableRow, and_comm, and_left_comm, and_assoc]

theorem forall_opcode_iff {p : Opcode → Prop} : (∀ op, p op) ↔ ∀ op ∈ opcodeRows, p op := by
  simp [mem_opcodeRows]

/-- R68's list is every byte that no row has. -/
theorem unassigned_iff {byte : Byte} :
    (∀ op, byte ≠ opcodeByte op) ↔ byte.toNat = 0x00 ∨ (0x07 ≤ byte.toNat ∧ byte.toNat ≤ 0x0F) ∨
      (0x11 ≤ byte.toNat ∧ byte.toNat ≤ 0x1F) ∨ 0x29 ≤ byte.toNat := by
  rw [forall_opcode_iff]
  simp only [opcodeRows, List.forall_mem_cons, List.not_mem_nil, IsEmpty.forall_iff, implies_true, and_true, opcodeByte,
    ne_eq, BitVec.toNat_eq, BitVec.toNat_ofNat, Nat.reducePow, Nat.one_mod, Nat.reduceMod]
  omega

/-! ## The checks of decode (R70) -/

theorem opcodeOf_eq_some_iff {byte : Byte} {op : Opcode} : opcodeOf byte = some op ↔ byte = opcodeByte op :=
  ⟨fun h => (opcodeByte_of_opcodeOf h).symm, fun h => h ▸ opcodeOf_opcodeByte op⟩

theorem opcodeOf_eq_none_iff {byte : Byte} : opcodeOf byte = none ↔ ∀ op, byte ≠ opcodeByte op := by
  simp only [Option.eq_none_iff_forall_ne_some, ne_eq, opcodeOf_eq_some_iff]

/-- What decode answers, said once: the first check of R70 that fails gives the fault. -/
theorem decode_eq_iff {w : CmdWord} {r : Except FaultCode Instr} :
    decode w = r ↔ (∀ op, w.opc ≠ opcodeByte op) ∧ r = .error .illegalOpcode ∨
      ∃ op, w.opc = opcodeByte op ∧
        (¬ReservedZero op w ∧ r = .error .reservedField ∨
          ReservedZero op w ∧ commandOf op w = none ∧ r = .error .illegalMode ∨
          ReservedZero op w ∧ ∃ i, commandOf op w = some i ∧ r = .ok i) := by
  simp only [← opcodeOf_eq_none_iff, ← opcodeOf_eq_some_iff]
  cases hop : opcodeOf w.opc with
  | none => simp [decode, hop, eq_comm]
  | some op =>
    by_cases hz : ReservedZero op w
    · obtain ⟨hrsv, hfields⟩ := id hz
      cases hi : commandOf op w <;> simp [decode, hop, hz, hrsv, hfields, hi, eq_comm]
    · have hreserved : decode w = .error .reservedField := by
        simp only [ReservedZero, not_and_or, Bool.not_eq_true] at hz
        simp only [decode, hop]
        split_ifs <;> simp_all
      simp [hreserved, hz, eq_comm]

theorem decode_eq_ok_iff {w : CmdWord} {i : Instr} :
    decode w = .ok i ↔ ∃ op, w.opc = opcodeByte op ∧ ReservedZero op w ∧ commandOf op w = some i := by
  simp [decode_eq_iff]

theorem exists_decode_eq_ok_iff {w : CmdWord} :
    (∃ i, decode w = .ok i) ↔ ∃ op, w.opc = opcodeByte op ∧ ReservedZero op w ∧ commandOf op w ≠ none := by
  simp only [decode_eq_ok_iff, Option.ne_none_iff_exists']
  exact exists_comm.trans (exists_congr fun op => by simp)

theorem decode_eq_illegalOpcode_iff {w : CmdWord} :
    decode w = .error .illegalOpcode ↔ ∀ op, w.opc ≠ opcodeByte op := by
  simp [decode_eq_iff]

theorem decode_eq_reservedField_iff {w : CmdWord} :
    decode w = .error .reservedField ↔ ∃ op, w.opc = opcodeByte op ∧ ¬ReservedZero op w := by
  simp [decode_eq_iff]

theorem decode_eq_illegalMode_iff {w : CmdWord} :
    decode w = .error .illegalMode ↔ ∃ op, w.opc = opcodeByte op ∧ ReservedZero op w ∧ commandOf op w = none := by
  simp [decode_eq_iff]

/-! ## Encoding and decoding -/

/-- A command's word has its row's OPC and no reserved bit set. -/
theorem encodedFields_encode (i : Instr) : Laws.EncodedFields.Statement i := by
  cases i with
  | setPixel x y mode => exact Laws.EncodedFields.setPixel x y mode
  | getPixel x y => exact Laws.EncodedFields.getPixel x y
  | writeChar code noadv => exact Laws.EncodedFields.writeChar code noadv
  | scroll => exact Laws.EncodedFields.scroll
  | setCursor row column => exact Laws.EncodedFields.setCursor row column
  | clear => exact Laws.EncodedFields.clear
  | drawLine x0 y0 x1 y1 mode => exact Laws.EncodedFields.drawLine x0 y0 x1 y1 mode
  | sendCmd byte => exact Laws.EncodedFields.sendCmd byte
  | sendData byte => exact Laws.EncodedFields.sendData byte
  | refresh => exact Laws.EncodedFields.refresh
  | setBrightness level => exact Laws.EncodedFields.setBrightness level
  | sleep => exact Laws.EncodedFields.sleep
  | wake => exact Laws.EncodedFields.wake
  | turnOff => exact Laws.EncodedFields.turnOff
  | turnOn => exact Laws.EncodedFields.turnOn
  | init => exact Laws.EncodedFields.init

/-- The operands, the mode and the flag of a command are read back from its word. -/
theorem commandOf_encode (i : Instr) : commandOf (opcodeOfInstr i) (encode i) = some i := by
  cases i with
  | setPixel | drawLine =>
    simp [commandOf, opcodeOfInstr, encode, CmdWord.extract_modifier _ (start := 0) (len := 2), modeOf_modeByte]
  | writeChar code noadv =>
    have hbit := CmdWord.extract_modifier (encode (.writeChar code noadv)) (start := 0) (len := 1) (by omega)
    cases noadv <;> simp_all [commandOf, opcodeOfInstr, encode, noadvByte]
  | getPixel | setCursor | sendCmd | sendData | setBrightness => simp [commandOf, opcodeOfInstr, encode]
  | scroll | clear | refresh | sleep | wake | turnOff | turnOn | init => rfl

/-- ILLEGAL_MODE is left for a row with a mode whose two bits name none (R66). -/
theorem commandOf_eq_none_iff {op : Opcode} {w : CmdWord} :
    commandOf op w = none ↔ (tableRow op).2.2 = true ∧ Machine.modeField w = 3#2 := by
  cases op with
  | setPixel | drawLine =>
    simp [commandOf, tableRow, opcodeFormat, formatHasMode, modeOf_eq_none_iff, Machine.modeField]
  | getPixel | writeChar | scroll | setCursor | clear | sendCmd | sendData | refresh | setBrightness | sleep | wake
  | turnOff | turnOn | init => simp [commandOf, tableRow, opcodeFormat, formatHasMode]

/-- MOD is determined by its MODE bits where the others are 0. -/
theorem modeByte_eq_modifier {w : CmdWord} {mode : Mode} (hhigh : w.extractLsb' 10 6 = 0#6)
    (hmode : modeOf (w.extractLsb' 8 2) = some mode) : modeByte mode = w.modifier := by
  rw [byte_eq_iff_low_high 2, ← w.extract_modifier (by omega), ← w.extract_modifier (by omega), hhigh]
  exact ⟨modeOf_eq_some_iff.1 hmode, Laws.EncodedFields.modeByte_high mode⟩

/-- MOD is determined by its NOADV bit where the others are 0. -/
theorem noadvByte_eq_modifier {w : CmdWord} (hhigh : w.extractLsb' 9 7 = 0#7) :
    noadvByte (w.extractLsb' 8 1 == 1#1) = w.modifier := by
  rw [byte_eq_iff_low_high 1, ← w.extract_modifier (by omega), ← w.extract_modifier (by omega), hhigh]
  exact ⟨noadvByte_bit, Laws.EncodedFields.noadvByte_high _⟩

/-- A word of a row with no reserved bit set is the word of the command read from it. -/
theorem encode_commandOf {op : Opcode} {w : CmdWord} {i : Instr} (hopc : w.opc = opcodeByte op)
    (hz : ReservedZero op w) (hi : commandOf op w = some i) : encode i = w := by
  obtain ⟨hrsv, hfields⟩ := hz
  cases op with
  | setPixel | drawLine =>
    obtain ⟨mode, hmode, rfl⟩ := Option.map_eq_some_iff.1 hi
    simp_all [opcodeFormat, formatFieldsZero, encode, opcodeOfInstr, wordOfFields_eq_iff, modeByte_eq_modifier _ hmode]
  | writeChar =>
    obtain rfl := Option.some.inj hi
    simp_all [opcodeFormat, formatFieldsZero, encode, opcodeOfInstr, wordOfFields_eq_iff, noadvByte_eq_modifier]
  | getPixel | scroll | setCursor | clear | sendCmd | sendData | refresh | setBrightness | sleep | wake
  | turnOff | turnOn | init =>
    obtain rfl := Option.some.inj hi
    simp_all [opcodeFormat, formatFieldsZero, encode, opcodeOfInstr, wordOfFields_eq_iff]

theorem decode_encode (i : Instr) : decode (encode i) = .ok i := by
  obtain ⟨hopc, hrsv, hfields⟩ := encodedFields_encode i
  exact decode_eq_ok_iff.2 ⟨opcodeOfInstr i, hopc, ⟨hrsv, hfields⟩, commandOf_encode i⟩

theorem encode_of_decode {w : CmdWord} {i : Instr} (h : decode w = .ok i) : encode i = w := by
  obtain ⟨op, hopc, hz, hi⟩ := decode_eq_ok_iff.1 h
  exact encode_commandOf hopc hz hi

/-! ## The assembler (R71) -/

@[simp] theorem fitsByte_toNat (x : Byte) : fitsByte x.toNat = true := decide_eq_true x.isLt

namespace Machine

/-- R71's check is the assembler's only one. -/
theorem assembleLine_isSome_iff (line : AsmLine) : (assembleLine line).isSome = true ↔ line.wellFormed = true := by
  unfold assembleLine
  split_ifs with h
  · cases line <;> simp [h]
  · simp [h]

theorem assembleLine_toAsm (i : Instr) : assembleLine i.toAsm = some [i] := by
  have h : i.toAsm.wellFormed = true := i.wellFormed_eq
  unfold assembleLine
  rw [if_pos h]
  cases i <;> simp [Instr.toAsm]

theorem assembleLine_writeString (codes : List Byte) :
    assembleLine (.writeString (codes.map (·.toNat))) = some (codes.map (.writeChar · false)) := by
  simp [assembleLine, AsmLine.wellFormed]

end Machine

end Sys2Proof

open Sys2Proof Sys2Proof.Machine

/-- Settles O3: the word has its row's OPC, no reserved bit, and the command's operands in its fields. -/
theorem decodeAfterEncode : Obligations.DecodeAfterEncode :=
  fun i _ => decode_encode i

/-- Settles O2: every word is the weighted sum of its fields, and R72's word has the six given and RSV 0. -/
theorem encodedWordIsTheWeightedSum : Obligations.EncodedWordIsTheWeightedSum := by
  intro opc modifier a b c d
  simpa using (wordOfFields opc modifier a b c d).toNat_eq_sum

/-- Settles O4: the fields that the format lists are the command's, and the others are 0 in both words. -/
theorem encodeAfterDecode : Obligations.EncodeAfterDecode :=
  fun _ _ => encode_of_decode

/-- Settles O5: the first check of decode fails exactly at a byte of no row. -/
theorem unassignedOpcodesAreIllegal : Obligations.UnassignedOpcodesAreIllegal :=
  ⟨rfl, fun _ => decode_eq_illegalOpcode_iff.trans unassigned_iff⟩

/-- Settles O6: a row's mask covers its OPC and the bits that R63 fixes. -/
theorem decodeFollowsTheOpcodeTable : Obligations.DecodeFollowsTheOpcodeTable := by
  intro w
  simp only [mem_opcodeTable_iff, exists_exists_eq_and, forall_exists_index, forall_apply_eq_imp_iff, opc_tableRow,
    ne_eq, matches_tableRow_iff, ← commandOf_eq_none_iff, and_assoc]
  refine ⟨decode_eq_illegalOpcode_iff, decode_eq_reservedField_iff.trans ?_, decode_eq_illegalMode_iff,
    exists_decode_eq_ok_iff⟩
  exact exists_congr fun op => and_congr_right fun hopc => by simp [hopc]

/-- Settles O7: the check on the operands is the assembler's only one, and a byte comes back from its literal. -/
theorem assemblerAcceptsExactlyBytes : Obligations.AssemblerAcceptsExactlyBytes :=
  ⟨assembleLine_isSome_iff, assembleLine_toAsm, assembleLine_writeString, rfl⟩

/-- Settles O1: each word is a literal, decoded by evaluation. -/
theorem specWordsDecode : Obligations.SpecWordsDecode := by
  unfold Obligations.SpecWordsDecode
  decide

end

section
/-! SUPPORT. The framebuffer commands (spec/40_framebuffer.md): one bit of PixelOp, writes to FB as equations, plots,
the scroll, and WRITECHAR by where its cursor stands. -/

namespace Sys2Proof.Machine

/-! ## Commands in sequence -/

theorem execAll_cons_of_next {i : Instr} {s t : State} (h : exec i s = .next t) (later : List Instr) :
    execAll (i :: later) s = execAll later t := by
  simp only [execAll, h]

/-! ## One bit of PixelOp (R80) -/

/-- R80's truth table: what each mode makes of a bit. -/
def modeBit : Mode → Bool → Bool
  | .set, _ => true
  | .clear, _ => false
  | .toggle, old => !old

/-- The operand `1 << k` of R80 has bit `k` only. -/
theorem getLsbD_one_shiftLeft {k j : Nat} (hj : j < 8) : (1#8 <<< k).getLsbD j = decide (j = k) := by
  refine (BitVec.getLsbD_twoPow k j).trans ?_
  by_cases h : j = k
  · simp [← h, hj]
  · simp [h, Ne.symm h]

/-- PixelOp, bit by bit (R80). -/
theorem getLsbD_pixelOp (v : Byte) {k j : Nat} (mode : Mode) (hj : j < 8) :
    (pixelOp v k mode).getLsbD j = if j = k then modeBit mode (v.getLsbD j) else v.getLsbD j := by
  have hmask := getLsbD_one_shiftLeft (k := k) hj
  cases mode with
  | set =>
    rw [pixelOp, BitVec.getLsbD_or, hmask]
    by_cases h : j = k <;> simp [modeBit, h]
  | clear =>
    rw [pixelOp, BitVec.getLsbD_and, BitVec.getLsbD_not, hmask]
    by_cases h : j = k <;> simp [modeBit, h, hj]
  | toggle =>
    rw [pixelOp, BitVec.getLsbD_xor, hmask]
    by_cases h : j = k <;> simp [modeBit, h]

/-- Operations on different bits of a byte commute. -/
theorem pixelOp_comm (v : Byte) {k k' : Nat} (mode mode' : Mode) (h : k ≠ k') :
    pixelOp (pixelOp v k mode) k' mode' = pixelOp (pixelOp v k' mode') k mode := by
  refine BitVec.eq_of_getLsbD_eq fun j hj => ?_
  simp only [getLsbD_pixelOp _ _ hj]
  by_cases hk : j = k
  · simp [hk, h]
  · simp [hk]

theorem pixelOp_toggle_toggle (v : Byte) (k : Nat) : pixelOp (pixelOp v k .toggle) k .toggle = v := by
  refine BitVec.eq_of_getLsbD_eq fun j hj => ?_
  simp only [getLsbD_pixelOp _ _ hj, modeBit]
  split_ifs <;> simp

theorem pixelOp_idem (v : Byte) (k : Nat) {mode : Mode} (h : mode ≠ .toggle) :
    pixelOp (pixelOp v k mode) k mode = pixelOp v k mode := by
  refine BitVec.eq_of_getLsbD_eq fun j hj => ?_
  simp only [getLsbD_pixelOp _ _ hj]
  split_ifs
  · cases mode with
    | set | clear => rfl
    | toggle => exact absurd rfl h
  · rfl

/-! ## Writes to FB as equations -/

section
variable {m : Memory} {a b : Nat} (hm : m.wf = true) (ha : a < fbSize)
include hm ha

/-- The later of two writes to a byte stands. -/
theorem Memory.write_write_same (v w : Byte) : (m.write a v).write a w = m.write a w := by
  have hv := Memory.wf_write v ha hm
  refine Memory.eq_of_read (Memory.wf_write w ha hv) (Memory.wf_write w ha hm) fun c => ?_
  simp only [Memory.read_write hv, Memory.read_write hm]
  split_ifs <;> rfl

/-- Writing back what was read changes nothing. -/
theorem Memory.write_read_self : m.write a (m.read a) = m := by
  refine Memory.eq_of_read (Memory.wf_write _ ha hm) hm fun c => ?_
  rw [Memory.read_write hm]
  split_ifs with h
  · rw [h]
  · rfl

/-- Writes to different bytes commute. -/
theorem Memory.write_comm (hb : b < fbSize) (h : a ≠ b) (v w : Byte) :
    (m.write a v).write b w = (m.write b w).write a v := by
  have hv := Memory.wf_write v ha hm
  have hw := Memory.wf_write w hb hm
  refine Memory.eq_of_read (Memory.wf_write w hb hv) (Memory.wf_write v ha hw) fun c => ?_
  simp only [Memory.read_write hv, Memory.read_write hw, Memory.read_write hm]
  by_cases hac : a = c
  · simp [← hac, Ne.symm h]
  · simp [hac]

end

/-! ## Plots (R81 to R83) -/

theorem execAll_setPixel_setPixel (x y x' y' : Byte) (mode mode' : Mode) (s : State) :
    execAll [.setPixel x y mode, .setPixel x' y' mode'] s =
      .next (plot x'.toNat y'.toNat mode' (plot x.toNat y.toNat mode s)) := rfl

/-- Two plots into one byte are two operations on it. -/
theorem plot_plot_of_plotAddr_eq {x y x' y' : Nat} (mode mode' : Mode) {s : State} (hs : s.fb.wf = true)
    (h : plotAddr x y = plotAddr x' y') :
    plot x' y' mode' (plot x y mode s) =
      s.withFb (s.fb.write (plotAddr x y) (pixelOp
        (pixelOp (s.fb.read (plotAddr x y)) (pixBit (wrapY y)) mode) (pixBit (wrapY y')) mode')) := by
  simp only [plot, ← h, State.withFb_fb, Memory.read_write_same hs,
    Memory.write_write_same hs (plotAddr_lt x y)]
  rfl

/-- Plots of different bits commute (R89 law 5). -/
theorem plot_comm {x y x' y' : Nat} (mode mode' : Mode) {s : State} (hs : s.fb.wf = true)
    (h : plotAddr x y = plotAddr x' y' → pixBit (wrapY y) ≠ pixBit (wrapY y')) :
    plot x' y' mode' (plot x y mode s) = plot x y mode (plot x' y' mode' s) := by
  by_cases ha : plotAddr x y = plotAddr x' y'
  · rw [plot_plot_of_plotAddr_eq mode mode' hs ha, plot_plot_of_plotAddr_eq mode' mode hs ha.symm, ha,
      pixelOp_comm _ _ _ (h ha)]
  · simp only [plot, State.withFb_fb, Memory.read_write_ne _ _ ha, Memory.read_write_ne _ _ (Ne.symm ha),
      Memory.write_comm hs (plotAddr_lt x y) (plotAddr_lt x' y') ha]
    rfl

theorem plot_toggle_toggle (x y : Nat) {s : State} (hs : s.fb.wf = true) :
    plot x y .toggle (plot x y .toggle s) = s := by
  rw [plot_plot_of_plotAddr_eq _ _ hs rfl, pixelOp_toggle_toggle, Memory.write_read_self hs (plotAddr_lt x y)]
  rfl

theorem plot_idem (x y : Nat) {mode : Mode} {s : State} (hs : s.fb.wf = true) (h : mode ≠ .toggle) :
    plot x y mode (plot x y mode s) = plot x y mode s := by
  rw [plot_plot_of_plotAddr_eq _ _ hs rfl, pixelOp_idem _ _ h]
  rfl

/-- The plotted pixel has the bit that the mode makes of the old one (R89 law 1). -/
theorem pixelBit_plot (x y : Nat) (mode : Mode) {s : State} (hs : s.fb.wf = true) :
    pixelBit x y (plot x y mode s) = modeBit mode (pixelBit x y s) := by
  simp only [pixelBit, plot, State.withFb_fb, Memory.read_write_same hs, getLsbD_pixelOp _ _ (pixBit_lt _), if_true]

/-- Pixels that differ after wrap are different bits of FB (R40). -/
theorem pixBit_ne_of_plotAddr_eq {x y x' y' : Nat} (h : x % 128 ≠ x' % 128 ∨ y % 64 ≠ y' % 64)
    (ha : plotAddr x y = plotAddr x' y') : pixBit (wrapY y) ≠ pixBit (wrapY y') := fun hbit =>
  have hxy : x % 128 = x' % 128 ∧ y % 64 = y' % 64 := pixel_eq_of_pixAddr_eq (wrapX_lt x) (wrapX_lt x') ha hbit
  h.elim (· hxy.1) (· hxy.2)

theorem wrapX_mod (x : Byte) : wrapX (x % 128#8).toNat = wrapX x.toNat := Nat.mod_mod _ _

theorem wrapY_mod (y : Byte) : wrapY (y % 64#8).toNat = wrapY y.toNat := Nat.mod_mod _ _

/-- A wrapped coordinate has the same byte of FB (R83). -/
theorem plotAddr_mod (x y : Byte) : plotAddr (x % 128#8).toNat (y % 64#8).toNat = plotAddr x.toNat y.toNat := by
  rw [plotAddr, plotAddr, wrapX_mod, wrapY_mod]

theorem plot_mod (x y : Byte) (mode : Mode) (s : State) :
    plot (x % 128#8).toNat (y % 64#8).toNat mode s = plot x.toNat y.toNat mode s := by
  rw [plot, plot, plotAddr_mod, wrapY_mod]

theorem pixelBit_mod (x y : Byte) (s : State) :
    pixelBit (x % 128#8).toNat (y % 64#8).toNat s = pixelBit x.toNat y.toNat s := by
  rw [pixelBit, pixelBit, plotAddr_mod, wrapY_mod]

/-! ## The scroll (R85) -/

/-- Scrolls in sequence scroll FB as often, whatever they do to CURSOR. -/
theorem execAll_replicate_scroll (n : Nat) (s : State) :
    ∃ t, execAll (List.replicate n .scroll) s = .next t ∧ t.fb = Memory.scroll^[n] s.fb := by
  induction n generalizing s with
  | zero => exact ⟨s, rfl, rfl⟩
  | succ n ih =>
    obtain ⟨u, hu⟩ : ∃ u, exec .scroll s = .next u := ⟨_, rfl⟩
    obtain ⟨c, rfl, -⟩ := execScroll_frame hu
    obtain ⟨t, ht, hfb⟩ := ih ((s.withFb s.fb.scroll).withCursor c)
    exact ⟨t, (execAll_cons_of_next hu _).trans ht, hfb⟩

/-- Of `n` scrolls each brings in one more row of zeros. -/
theorem Memory.read_scroll_iterate {m : Memory} (hm : m.wf = true) (n : Nat) {a : Nat}
    (ha : fbSize ≤ a + n * lineStride) : (Memory.scroll^[n] m).read a = 0x00#8 := by
  induction n generalizing a with
  | zero => exact Memory.read_outside hm (by simpa using ha)
  | succ n ih =>
    rw [Function.iterate_succ_apply', Memory.read_scroll]
    split_ifs
    · exact ih (by simp only [fbSize, lineStride] at ha ⊢; omega)
    · rfl

/-! ## The glyph (R84) -/

@[simp] theorem length_glyphRead (cfg : Config) (code : Byte) : (glyphRead cfg code).length = 8 :=
  List.length_ofFn

/-- The glyph's bytes, read back where they were written. -/
theorem Memory.read_writeBytes_glyph {m : Memory} (hm : m.wf = true) {c : Nat} (hc : c ≤ 1016) (cfg : Config)
    (code : Byte) (k : Fin 8) :
    (m.writeBytes c (glyphRead cfg code)).read (c + k.val) = (cfg.glyph[code.toNat]'code.isLt)[k] := by
  rw [Memory.read_writeBytes_inside (by simp only [length_glyphRead, fbSize]; omega) hm (by simp)]
  simp only [glyphRead, List.getElem_ofFn]

theorem Memory.wf_writeBytes_glyph {m : Memory} (hm : m.wf = true) {c : Nat} (hc : c ≤ 1016) (cfg : Config)
    (code : Byte) : (m.writeBytes c (glyphRead cfg code)).wf = true :=
  Memory.wf_writeBytes (by simp only [length_glyphRead, fbSize]; omega) hm

/-- A glyph changes its eight bytes only. -/
theorem Memory.read_writeBytes_glyph_outside (m : Memory) {c a : Nat} (cfg : Config) (code : Byte)
    (ha : a < c ∨ c + 8 ≤ a) : (m.writeBytes c (glyphRead cfg code)).read a = m.read a :=
  Memory.read_writeBytes_outside _ _ (by simpa using ha)

/-! ## WRITECHAR by where its cursor stands (R84) -/

theorem cursorOob_iff {c : BitVec 16} : cursorOob c = true ↔ c.toNat ≠ 1024 ∧ 1016 < c.toNat := by
  simp only [cursorOob, fbSize, Bool.and_eq_true, decide_eq_true_eq]
  omega

section
variable (code : Byte) (noadv : Bool) {s : State}

theorem exec_writeChar_of_oob (h : cursorOob s.cursor = true) :
    exec (.writeChar code noadv) s = .next (s.withFault 0x04#8 (encode (.writeChar code noadv))) :=
  congrArg Host.Outcome.next (if_pos h)

/-- With no fault, WRITECHAR's glyph and advance follow its scroll test. -/
theorem exec_writeChar_of_not_oob (h : cursorOob s.cursor = false) :
    exec (.writeChar code noadv) s = .next (advanceCursor noadv (putGlyph code (scrollAtEnd s))) :=
  congrArg Host.Outcome.next (if_neg (by simp [h]))

/-- From a cursor whose glyph fits, the glyph is written there. -/
theorem exec_writeChar_of_le (h : s.cursor.toNat ≤ 1016) :
    exec (.writeChar code noadv) s =
      .next ((s.withFb (s.fb.writeBytes s.cursor.toNat (glyphRead s.cfg code))).withCursor
        (if noadv then s.cursor else s.cursor + 8#16)) := by
  have hoob : cursorOob s.cursor = false := by
    rw [Bool.eq_false_iff, ne_eq, cursorOob_iff]
    omega
  have hscroll : scrollAtEnd s = s := if_neg (by simp only [fbSize]; omega)
  rw [exec_writeChar_of_not_oob code noadv hoob, hscroll]
  cases noadv <;> rfl

/-- From the end of FB, a scroll makes room for the glyph at the start of the last row. -/
theorem exec_writeChar_of_end (h : s.cursor.toNat = 1024) :
    exec (.writeChar code noadv) s =
      .next ((s.withFb (s.fb.scroll.writeBytes 896 (glyphRead s.cfg code))).withCursor
        (if noadv then 896#16 else 904#16)) := by
  have hoob : cursorOob s.cursor = false := by
    rw [Bool.eq_false_iff, ne_eq, cursorOob_iff]
    omega
  have hscroll : scrollAtEnd s = (scrollFb s).withCursor 896#16 := if_pos h
  rw [exec_writeChar_of_not_oob code noadv hoob, hscroll]
  cases noadv <;> rfl

/-- From a cursor in range WRITECHAR changes FB and CURSOR only, and its advance stays in range (R189). -/
theorem exec_writeChar_of_cursorInRange (h : s.CursorInRange) :
    ∃ m c, exec (.writeChar code noadv) s = .next ((s.withFb m).withCursor c) ∧
      ((s.withFb m).withCursor c).CursorInRange := by
  obtain ⟨hle, hmod⟩ | hend := h
  · refine ⟨_, _, exec_writeChar_of_le code noadv hle, ?_⟩
    cases noadv with
    | true => exact .inl ⟨hle, hmod⟩
    | false =>
      simp only [State.CursorInRange, State.withCursor_cursor, Bool.false_eq_true, if_false, BitVec.toNat_add,
        BitVec.toNat_ofNat, Nat.reducePow, Nat.reduceMod]
      omega
  · refine ⟨_, _, exec_writeChar_of_end code noadv hend, ?_⟩
    cases noadv <;> simp [State.CursorInRange]

end

end Sys2Proof.Machine

open Sys2Proof Sys2Proof.Machine

/-- Settles O8: the operation of each mode, and its truth table at every bit. -/
theorem pixelOpFollowsTheTruthTable : Obligations.PixelOpFollowsTheTruthTable := by
  intro v k j mode _ hj
  rw [getLsbD_pixelOp v mode hj]
  cases mode <;> exact ⟨rfl, rfl⟩

/-- Settles O10: SETPIXEL is one plot, whose byte is found by the pixel map after wrap. -/
theorem setPixelChangesOneByte : Obligations.SetPixelChangesOneByte := by
  refine ⟨fun x y mode => by cases mode <;> rfl, fun x y mode s hs => ?_⟩
  obtain ⟨m, hplot, hm⟩ := plot_spec x.toNat y.toNat mode s hs
  exact ⟨m, congrArg Host.Outcome.next hplot, hm⟩

/-- Settles O12: GETPIXEL reads the bit that the plot left. -/
theorem getAfterSetReadsTheMode : Obligations.GetAfterSetReadsTheMode := by
  intro x y mode s hs
  refine ⟨_, bitResult (pixelBit x.toNat y.toNat (plot x.toNat y.toNat mode s)), rfl, rfl, ?_⟩
  rw [pixelBit_plot _ _ _ hs]
  cases mode with
  | set | clear => rfl
  | toggle => cases pixelBit x.toNat y.toNat s <;> rfl

/-- Settles O14: the bit is inverted twice, and FB's canonical form makes the memories equal. -/
theorem toggleTwiceRestores : Obligations.ToggleTwiceRestores := by
  intro x y s hs
  rw [execAll_setPixel_setPixel, plot_toggle_toggle _ _ hs]

/-- Settles O15: pixels that differ after wrap are different bits of FB, and Set and Clear do not read the old bit. -/
theorem plotsCommuteAndSettle : Obligations.PlotsCommuteAndSettle := by
  intro x y x' y' mode mode' s hs
  refine ⟨fun h => ?_, fun h => ?_⟩
  · rw [execAll_setPixel_setPixel, execAll_setPixel_setPixel, plot_comm mode mode' hs (pixBit_ne_of_plotAddr_eq h)]
  · rw [execAll_setPixel_setPixel, plot_idem _ _ hs h]
    rfl

/-- Settles O16: the three places where the cursor can stand. -/
theorem writeCharFollowsItsRule : Obligations.WriteCharFollowsItsRule := by
  intro code noadv s
  refine ⟨rfl, fun hne hgt => exec_writeChar_of_oob code noadv (cursorOob_iff.2 ⟨hne, hgt⟩), fun hs hend => ?_,
    fun hs hle => ?_⟩
  · have hscroll := Memory.wf_scroll hs
    refine ⟨_, exec_writeChar_of_end code noadv hend, Memory.wf_writeBytes_glyph hscroll (by decide) _ _,
      fun a ha => ?_, Memory.read_writeBytes_glyph hscroll (by decide) _ _, fun a hlo _ => ?_⟩
    · rw [Memory.read_writeBytes_glyph_outside _ _ _ (.inl ha), Memory.read_scroll, if_pos ha]
    · rw [Memory.read_writeBytes_glyph_outside _ _ _ (.inr hlo), Memory.read_scroll,
        if_neg (show ¬a < 896 by omega)]
      rfl
  · exact ⟨_, exec_writeChar_of_le code noadv hle, Memory.wf_writeBytes_glyph hs hle _ _,
      Memory.read_writeBytes_glyph hs hle _ _, fun a => Memory.read_writeBytes_glyph_outside _ _ _⟩

/-- Settles O17: a multiple of 8 up to 1016 is followed by one up to 1024, and 1024 by 896 or 904. -/
theorem writeCharKeepsTheCursorInRange : Obligations.WriteCharKeepsTheCursorInRange := by
  intro code noadv s h
  obtain ⟨m, c, hexec, hrange⟩ := exec_writeChar_of_cursorInRange code noadv h
  exact ⟨_, hexec, hrange, rfl, rfl⟩

/-- Settles O18: the second glyph begins where the first ends. -/
theorem twoGlyphsLeaveNoGap : Obligations.TwoGlyphsLeaveNoGap := by
  intro a b s hs _ hle
  have hnext : (s.cursor + 8#16).toNat = s.cursor.toNat + 8 := by
    simp only [BitVec.toNat_add, BitVec.toNat_ofNat, Nat.reducePow, Nat.reduceMod]
    omega
  have hfirst := exec_writeChar_of_le a false (s := s) (by omega)
  have hwf := Memory.wf_writeBytes_glyph hs (c := s.cursor.toNat) (by omega) s.cfg a
  refine ⟨(s.fb.writeBytes s.cursor.toNat (glyphRead s.cfg a)).writeBytes (s.cursor.toNat + 8) (glyphRead s.cfg b),
    ?_, fun k => ?_, fun k => ?_, fun j hj => ?_⟩
  · have hadvance : s.cursor + 8#16 + 8#16 = s.cursor + 16#16 := BitVec.add_assoc ..
    rw [execAll_cons_of_next hfirst, ← hadvance, ← hnext]
    exact execAll_cons_of_next (exec_writeChar_of_le b false (hnext.trans_le (by omega))) []
  · rw [Memory.read_writeBytes_glyph_outside _ _ _ (.inl (by omega)),
      Memory.read_writeBytes_glyph hs (by omega)]
  · exact Memory.read_writeBytes_glyph hwf (by omega) _ _ k
  · rw [Memory.read_writeBytes_glyph_outside _ _ _ (by omega), Memory.read_writeBytes_glyph_outside _ _ _ (by omega)]

/-- Settles O19, by induction on the characters: each WRITECHAR leaves the cursor in range for the next. -/
theorem writeStringRunsToItsEnd : Obligations.WriteStringRunsToItsEnd := by
  intro codes
  induction codes with
  | nil => exact fun s h => ⟨s, rfl, h, rfl, rfl, rfl, rfl⟩
  | cons code codes ih =>
    intro s h
    obtain ⟨m, c, hexec, hrange⟩ := exec_writeChar_of_cursorInRange code false h
    obtain ⟨t, ht, hkept⟩ := ih _ hrange
    exact ⟨t, (execAll_cons_of_next hexec _).trans ht, hkept⟩

/-- Settles O20: one scroll is R85's memory, and eight rows of zeros are all of FB. -/
theorem scrollMovesEveryRowUp : Obligations.ScrollMovesEveryRowUp := by
  refine ⟨rfl, fun s hs => ⟨s.fb.scroll, rfl, Memory.wf_scroll hs, fun i hi => ?_, fun i hlo _ => ?_, ?_⟩⟩
  · rw [Memory.read_scroll, if_pos hi]
  · rw [Memory.read_scroll, if_neg (Nat.not_lt.2 hlo)]
    rfl
  · obtain ⟨t, ht, hfb⟩ := execAll_replicate_scroll 8 s
    exact ⟨t, ht, fun a => hfb ▸ Memory.read_scroll_iterate hs 8 (Nat.le_add_left _ _)⟩

/-- Settles O11: GETPIXEL reads its bit through the pixel map after wrap. -/
theorem getPixelReturnsTheBit : Obligations.GetPixelReturnsTheBit :=
  fun _ _ _ => ⟨rfl, rfl⟩

/-- Settles O13: the wrapped coordinates have the same byte and bit of FB. -/
theorem pixelCoordinatesWrap : Obligations.PixelCoordinatesWrap := by
  intro x y mode s
  exact ⟨congrArg Host.Outcome.next (plot_mod x y mode s).symm,
    congrArg (fun bit => Host.Outcome.next (s.withResult (bitResult bit))) (pixelBit_mod x y s).symm⟩

/-- Settles O21: the offset is at most 34680, so CURSOR holds it whole. -/
theorem setCursorComputesTheOffset : Obligations.SetCursorComputesTheOffset := by
  intro row column s
  refine ⟨rfl, BitVec.ofNat 16 (cellOffset row column), ?_, rfl⟩
  have hrow := row.isLt
  have hcolumn := column.isLt
  rw [BitVec.toNat_ofNat, cellOffset, Nat.mod_eq_of_lt (by simp only [lineStride, glyphBytes]; omega)]

/-- Settles O22: CLEAR writes the memory of zeros. -/
theorem clearZeroesFbAndCursor : Obligations.ClearZeroesFbAndCursor :=
  ⟨rfl, fun _ => ⟨Memory.zeros, rfl, Memory.wf_zeros, Memory.read_zeros⟩⟩

end

section
/-! SUPPORT. The line rasterizer (spec/41_raster.md): a DRAWLINE as its plots, what plots do to one pixel, and the
registers after any number of iterations, from which the points and the bounds of the error term follow. -/

namespace Sys2Proof.Machine

/-! ## A DRAWLINE is its plots (R111) -/

/-- The loop plots the points that `linePoints` lists, and touches nothing else but the line registers. -/
theorem rasterize_eq_foldl_plot (x1 y1 : Int) (mode : Mode) (n : Nat) (r : LineRegs) (s : State) :
    (rasterize x1 y1 mode n (s.withLine (some r))).withLine none =
      ((linePoints x1 y1 n r).foldl (fun u p => plot p.1.toNat p.2.toNat mode u) s).withLine none := by
  induction n generalizing r s with
  | zero => rfl
  | succ n ih =>
    simp only [rasterize, linePoints, State.withLine_line, List.foldl_cons]
    split_ifs
    · rfl
    · exact ih (lineNext r) (plot r.x.toNat r.y.toNat mode s)

/-! ## One pixel under plots (R83) -/

/-- A pixel of FB needs no wrap. -/
theorem pixelBit_of_lt {x y : Nat} (hx : x < 128) (hy : y < 64) (s : State) :
    pixelBit x y s = (s.fb.read (pixAddr x y)).getLsbD (pixBit y) := by
  have hwx : wrapX x = x := Nat.mod_eq_of_lt hx
  have hwy : wrapY y = y := Nat.mod_eq_of_lt hy
  rw [pixelBit, plotAddr, hwx, hwy]

/-- Pixels that are equal after wrap are one bit of FB. -/
theorem pixelBit_congr {x y x' y' : Nat} (hx : x % 128 = x' % 128) (hy : y % 64 = y' % 64) (s : State) :
    pixelBit x y s = pixelBit x' y' s := by
  have hwx : wrapX x = wrapX x' := hx
  have hwy : wrapY y = wrapY y' := hy
  rw [pixelBit, pixelBit, plotAddr, plotAddr, hwx, hwy]

/-- A plot leaves every other pixel as it was. -/
theorem pixelBit_plot_of_ne {x y x' y' : Nat} (mode : Mode) {s : State} (hs : s.fb.wf = true)
    (h : x' % 128 ≠ x % 128 ∨ y' % 64 ≠ y % 64) : pixelBit x y (plot x' y' mode s) = pixelBit x y s := by
  rw [pixelBit, pixelBit, plot, State.withFb_fb]
  by_cases ha : plotAddr x' y' = plotAddr x y
  · rw [← ha, Memory.read_write_same hs, getLsbD_pixelOp _ _ (pixBit_lt _),
      if_neg (pixBit_ne_of_plotAddr_eq h ha).symm]
  · rw [Memory.read_write_ne _ _ ha]

/-- One pixel under one plot: the mode's bit where the plot falls on it, else its own. -/
theorem pixelBit_plot_eq_ite (x y x' y' : Nat) (mode : Mode) {s : State} (hs : s.fb.wf = true) :
    pixelBit x y (plot x' y' mode s) =
      if x' % 128 = x % 128 ∧ y' % 64 = y % 64 then modeBit mode (pixelBit x y s) else pixelBit x y s := by
  split_ifs with h
  · obtain ⟨hx, hy⟩ := h
    rw [← pixelBit_congr hx hy, pixelBit_plot _ _ _ hs, pixelBit_congr hx hy]
  · exact pixelBit_plot_of_ne mode hs (not_and_or.1 h)

/-- Plots in sequence change FB only, and apply the mode to a pixel once for each point that falls on it. -/
theorem foldl_plot_spec (ps : List (Int × Int)) (mode : Mode) {s : State} (hs : s.fb.wf = true) :
    ∃ m, ps.foldl (fun u p => plot p.1.toNat p.2.toNat mode u) s = s.withFb m ∧ m.wf = true ∧
      ∀ x y, x < 128 → y < 64 → pixelBit x y (s.withFb m) =
        (modeBit mode)^[ps.countP fun p => p.1.toNat % 128 == x && p.2.toNat % 64 == y] (pixelBit x y s) := by
  induction ps generalizing s with
  | nil => exact ⟨s.fb, rfl, hs, fun _ _ _ _ => rfl⟩
  | cons p ps ih =>
    obtain ⟨m, hplot, hm, -, -⟩ := plot_spec p.1.toNat p.2.toNat mode s hs
    obtain ⟨m', hfold, hm', hbits⟩ := ih (s := s.withFb m) hm
    refine ⟨m', by rw [List.foldl_cons, hplot, hfold]; rfl, hm', fun x y hx hy => (hbits x y hx hy).trans ?_⟩
    rw [← hplot, pixelBit_plot_eq_ite _ _ _ _ _ hs, Nat.mod_eq_of_lt hx, Nat.mod_eq_of_lt hy, List.countP_cons]
    simp only [Bool.and_eq_true, beq_iff_eq]
    split_ifs <;> rfl

/-- What a mode makes of a bit when it is applied `n` times: only Toggle counts. -/
theorem modeBit_iterate (mode : Mode) (n : Nat) (old : Bool) :
    (modeBit mode)^[n] old = (match mode with
      | .set => old || decide (0 < n)
      | .clear => old && decide (n = 0)
      | .toggle => old ^^ decide (n % 2 = 1)) := by
  induction n with
  | zero => cases mode <;> simp
  | succ n ih =>
    rw [Function.iterate_succ_apply', ih]
    cases mode with
    | set | clear => simp [modeBit]
    | toggle =>
      rcases Nat.mod_two_eq_zero_or_one n with h | h <;> simp [modeBit, Nat.add_mod, h]

/-! ## The registers after steps in x and in y (R112) -/

/-- The registers after `i` steps in x and `j` steps in y from `r`. -/
def LineRegs.stepped (r : LineRegs) (i j : Nat) : LineRegs :=
  { r with x := r.x + i * r.sx, y := r.y + j * r.sy, err := r.err + (j * r.dx + i * r.dy) }

@[simp] theorem LineRegs.stepped_dx (r : LineRegs) (i j : Nat) : (r.stepped i j).dx = r.dx := rfl
@[simp] theorem LineRegs.stepped_dy (r : LineRegs) (i j : Nat) : (r.stepped i j).dy = r.dy := rfl

theorem LineRegs.stepped_zero (r : LineRegs) : r.stepped 0 0 = r := by
  simp [LineRegs.stepped]

theorem stepX_stepped (e2 : Int) (r : LineRegs) (i j : Nat) :
    stepX e2 (r.stepped i j) = r.stepped (if r.dy ≤ e2 then i + 1 else i) j := by
  by_cases h : r.dy ≤ e2
  · rw [if_pos h]
    refine (if_pos h).trans ?_
    simp only [LineRegs.stepped, LineRegs.mk.injEq, Nat.cast_add, Nat.cast_one, true_and]
    constructor <;> ring
  · rw [if_neg h]
    exact if_neg h

theorem stepY_stepped (e2 : Int) (r : LineRegs) (i j : Nat) :
    stepY e2 (r.stepped i j) = r.stepped i (if e2 ≤ r.dx then j + 1 else j) := by
  by_cases h : e2 ≤ r.dx
  · rw [if_pos h]
    refine (if_pos h).trans ?_
    simp only [LineRegs.stepped, LineRegs.mk.injEq, Nat.cast_add, Nat.cast_one, true_and]
    constructor <;> ring
  · rw [if_neg h]
    exact if_neg h

/-- An iteration makes the steps that its two tests allow, both with one `e2`. -/
theorem lineNext_stepped (r : LineRegs) (i j : Nat) :
    lineNext (r.stepped i j) = r.stepped (if r.dy ≤ 2 * (r.stepped i j).err then i + 1 else i)
      (if 2 * (r.stepped i j).err ≤ r.dx then j + 1 else j) := by
  rw [lineNext, stepX_stepped, stepY_stepped]

/-- An iteration makes at most one step in each coordinate. -/
theorem exists_lineNext_stepped (r : LineRegs) (i j : Nat) :
    ∃ i' j', lineNext (r.stepped i j) = r.stepped i' j' ∧ (i' = i + 1 ∨ i' = i) ∧ (j' = j + 1 ∨ j' = j) :=
  ⟨_, _, lineNext_stepped r i j, ite_eq_or_eq .., ite_eq_or_eq ..⟩

/-! ## What every iteration keeps (R112, R113) -/

/-- What R110's set-up says of its working registers, whatever the endpoints. -/
structure LineRegs.Start (r : LineRegs) : Prop where
  dx_nonneg : 0 ≤ r.dx
  dy_nonpos : r.dy ≤ 0
  err_eq : r.err = r.dx + r.dy
  sx_unit : r.sx = 1 ∨ r.sx = -1
  sy_unit : r.sy = 1 ∨ r.sy = -1

/-- After `n` iterations with `i` steps in x and `j` in y: the longer axis has stepped every time, and
`j * dx - i * |dy|`, which is 0 on the ideal line, is at most half the longer axis in size, so that the other axis is
at a nearest pixel. -/
structure LineRegs.Tracks (r : LineRegs) (n i j : Nat) : Prop where
  xMajor : -r.dy ≤ r.dx → i = n
  yMajor : r.dx ≤ -r.dy → j = n
  lower : -max r.dx (-r.dy) ≤ 2 * (j * r.dx + i * r.dy)
  upper : 2 * (j * r.dx + i * r.dy) ≤ max r.dx (-r.dy)

section
variable {r : LineRegs} (hr : r.Start)
include hr

theorem LineRegs.Start.err_stepped (i j : Nat) : (r.stepped i j).err = r.dx + r.dy + (j * r.dx + i * r.dy) := by
  rw [← hr.err_eq]
  rfl

theorem LineRegs.Start.tracks_zero : r.Tracks 0 0 0 := by
  obtain ⟨hdx, hdy, -, -, -⟩ := hr
  exact ⟨fun _ => rfl, fun _ => rfl, by omega, by omega⟩

/-- Along the longer axis the test always holds; the other test holds when the line is half a pixel away or more. The
cases are R113's three iterations, and the one that R112 excludes. -/
theorem LineRegs.Start.tracks_next {n i j : Nat} (h : r.Tracks n i j) :
    r.Tracks (n + 1) (if r.dy ≤ 2 * (r.stepped i j).err then i + 1 else i)
      (if 2 * (r.stepped i j).err ≤ r.dx then j + 1 else j) := by
  rw [hr.err_stepped]
  obtain ⟨hdx, hdy, -, -, -⟩ := hr
  obtain ⟨hi, hj, hlo, hhi⟩ := h
  split_ifs with hstepX hstepY hstepY
  · constructor <;> push_cast [add_mul] <;> omega
  · constructor <;> push_cast [add_mul] <;> omega
  · constructor <;> push_cast [add_mul] <;> omega
  · omega

/-- After any number of iterations the registers are those of some steps, and near the ideal line. -/
theorem LineRegs.Start.iterate (n : Nat) : ∃ i j, lineNext^[n] r = r.stepped i j ∧ r.Tracks n i j := by
  induction n with
  | zero => exact ⟨0, 0, r.stepped_zero.symm, hr.tracks_zero⟩
  | succ n ih =>
    obtain ⟨i, j, heq, h⟩ := ih
    exact ⟨_, _, by rw [Function.iterate_succ_apply', heq, lineNext_stepped], hr.tracks_next h⟩

/-- R113: err before and between the two updates of an iteration. -/
theorem LineRegs.Start.err_bounds {n i j : Nat} (h : r.Tracks n i j) :
    2 * r.dy ≤ (r.stepped i j).err ∧ (r.stepped i j).err ≤ 2 * r.dx ∧
      2 * r.dy ≤ (stepX (2 * (r.stepped i j).err) (r.stepped i j)).err ∧
      (stepX (2 * (r.stepped i j).err) (r.stepped i j)).err ≤ 2 * r.dx := by
  rw [stepX_stepped, hr.err_stepped, hr.err_stepped]
  obtain ⟨hdx, hdy, -, -, -⟩ := hr
  obtain ⟨-, -, hlo, hhi⟩ := h
  split_ifs <;> push_cast [add_mul] <;> omega

end

/-! ## The points (R112) -/

/-- The steps along the longer axis tell how many iterations were made. -/
theorem LineRegs.Tracks.inj {r : LineRegs} {n m i j : Nat} (h : r.Tracks n i j) (h' : r.Tracks m i j) : n = m := by
  obtain hle | hle := le_total (-r.dy) r.dx
  · exact (h.xMajor hle).symm.trans (h'.xMajor hle)
  · exact (h.yMajor hle).symm.trans (h'.yMajor hle)

/-- The steps from endpoint to endpoint (R112). -/
def LineRegs.lineSteps (r : LineRegs) : Nat := max r.dx.natAbs r.dy.natAbs

/-- At `p` of `d` steps along the longer axis, `q` steps within half a pixel of `p * a / d` are at most `a`, and at the
end they are `a`. -/
theorem minorSteps_le {a d p q : Int} (ha : 0 ≤ a) (hd : 0 < d) (hp : p ≤ d) (hlo : -d ≤ 2 * (q * d - p * a))
    (hhi : 2 * (q * d - p * a) ≤ d) : q ≤ a ∧ (p = d → q = a) := by
  have hle : q ≤ a := by
    by_contra h
    nlinarith [mul_le_mul_of_nonneg_right hp ha, mul_le_mul_of_nonneg_right (show a + 1 ≤ q by omega) hd.le]
  refine ⟨hle, ?_⟩
  rintro rfl
  by_contra h
  nlinarith [mul_le_mul_of_nonneg_right (show q + 1 ≤ a by omega) hd.le]

section
variable {r : LineRegs} (hr : r.Start)
include hr

/-- Up to iteration `lineSteps` no coordinate steps beyond its end, and in that iteration both are there. -/
theorem LineRegs.Start.steps_le {n i j : Nat} (h : r.Tracks n i j) (hn : n ≤ r.lineSteps) :
    (i ≤ r.dx ∧ j ≤ -r.dy) ∧ (n = r.lineSteps → i = r.dx ∧ j = -r.dy) := by
  obtain ⟨hdx, hdy, -, -, -⟩ := hr
  obtain ⟨hi, hj, hlo, hhi⟩ := h
  rw [LineRegs.lineSteps] at hn ⊢
  obtain hle | hlt := le_or_gt (-r.dy) r.dx
  · obtain rfl := hi hle
    obtain hpos | hzero := hdx.lt_or_eq
    · obtain ⟨hq, hend⟩ := minorSteps_le (a := -r.dy) (d := r.dx) (p := i) (q := j) (by omega) hpos (by omega)
        (by rw [mul_neg]; omega) (by rw [mul_neg]; omega)
      omega
    · have := hj (by omega)
      omega
  · obtain rfl := hj hlt.le
    obtain ⟨hq, hend⟩ := minorSteps_le (a := r.dx) (d := -r.dy) (p := j) (q := i) hdx (by omega) (by omega)
      (by rw [mul_neg]; omega) (by rw [mul_neg]; omega)
    omega

/-- A coordinate's steps are told by the coordinate. -/
theorem LineRegs.Start.steps_inj {i j i' j' : Nat} (hx : r.x + i * r.sx = r.x + i' * r.sx)
    (hy : r.y + j * r.sy = r.y + j' * r.sy) : i = i' ∧ j = j' := by
  obtain ⟨-, -, -, hsx, hsy⟩ := hr
  constructor
  · rcases hsx with h | h <;> rw [h] at hx <;> omega
  · rcases hsy with h | h <;> rw [h] at hy <;> omega

end

/-- The point that iteration `n` plots (R111). -/
def linePoint (r : LineRegs) (n : Nat) : Int × Int := ((lineNext^[n] r).x, (lineNext^[n] r).y)

theorem linePoint_of_iterate {r : LineRegs} {n i j : Nat} (h : lineNext^[n] r = r.stepped i j) :
    linePoint r n = (r.x + i * r.sx, r.y + j * r.sy) :=
  congrArg (fun u => (u.x, u.y)) h

/-- If the endpoint is first met at iteration `n`, the loop plots the points of the iterations up to it. -/
theorem linePoints_eq_map_range {x1 y1 : Int} {n fuel : Nat} {r : LineRegs} (hfuel : n < fuel)
    (hend : linePoint r n = (x1, y1)) (hbefore : ∀ k < n, linePoint r k ≠ (x1, y1)) :
    linePoints x1 y1 fuel r = (List.range (n + 1)).map (linePoint r) := by
  induction fuel generalizing n r with
  | zero => exact absurd hfuel n.not_lt_zero
  | succ fuel ih =>
    cases n with
    | zero =>
      have h : r.x = x1 ∧ r.y = y1 := Prod.mk.inj hend
      rw [linePoints, if_pos h]
      rfl
    | succ n =>
      have h : ¬(r.x = x1 ∧ r.y = y1) := fun ⟨hx, hy⟩ => hbefore 0 n.succ_pos (Prod.ext hx hy)
      rw [linePoints, if_neg h, ih (r := lineNext r) (Nat.lt_of_succ_lt_succ hfuel) hend
        fun k hk => hbefore (k + 1) (Nat.succ_lt_succ hk), List.range_succ_eq_map (n := n + 1), List.map_cons,
        List.map_map]
      rfl

section
variable {r : LineRegs} (hr : r.Start)
include hr

theorem LineRegs.Start.linePoint_eq (n : Nat) :
    ∃ i j : Nat, linePoint r n = (r.x + i * r.sx, r.y + j * r.sy) ∧ r.Tracks n i j := by
  obtain ⟨i, j, heq, h⟩ := hr.iterate n
  exact ⟨i, j, linePoint_of_iterate heq, h⟩

theorem LineRegs.Start.linePoint_injective : Function.Injective (linePoint r) := by
  intro n m heq
  obtain ⟨i, j, hn, htracks⟩ := hr.linePoint_eq n
  obtain ⟨i', j', hm, htracks'⟩ := hr.linePoint_eq m
  obtain ⟨hx, hy⟩ := Prod.mk.inj (hn.symm.trans (heq.trans hm))
  obtain ⟨rfl, rfl⟩ := hr.steps_inj hx hy
  exact htracks.inj htracks'

/-- One iteration changes each coordinate by at most 1. -/
theorem LineRegs.Start.linePoint_succ_near (n : Nat) :
    ((linePoint r (n + 1)).1 - (linePoint r n).1).natAbs ≤ 1 ∧
      ((linePoint r (n + 1)).2 - (linePoint r n).2).natAbs ≤ 1 := by
  obtain ⟨i, j, heq, -⟩ := hr.iterate n
  obtain ⟨i', j', hnext, hi, hj⟩ := exists_lineNext_stepped r i j
  obtain ⟨-, -, -, hsx, hsy⟩ := hr
  have heq' : lineNext^[n + 1] r = r.stepped i' j' := by rw [Function.iterate_succ_apply', heq, hnext]
  rw [linePoint_of_iterate heq', linePoint_of_iterate heq]
  constructor
  · rcases hsx with h | h <;> rw [h] <;> omega
  · rcases hsy with h | h <;> rw [h] <;> omega

end

/-! ## From the endpoints (R110) -/

theorem stepSign_unit (a b : Int) : stepSign a b = 1 ∨ stepSign a b = -1 := by
  rw [stepSign]
  split_ifs <;> simp

/-- The distance in steps of the step sign leads from one end to the other. -/
theorem add_abs_mul_stepSign (a b : Int) : a + |b - a| * stepSign a b = b := by
  rw [stepSign]
  split_ifs with h
  · rw [abs_of_pos (by omega)]
    omega
  · rw [abs_of_nonpos (by omega)]
    omega

/-- Steps that do not lead beyond the end stay between the ends. -/
theorem add_mul_stepSign_mem {a b : Int} {i : Nat} (hi : i ≤ |b - a|) :
    a + i * stepSign a b ∈ Set.Icc (min a b) (max a b) := by
  rw [Set.mem_Icc, stepSign]
  split_ifs with h
  · rw [abs_of_pos (by omega)] at hi
    omega
  · rw [abs_of_nonpos (by omega)] at hi
    omega

section
variable (x0 y0 x1 y1 : Int)

theorem lineSetup_start : (lineSetup x0 y0 x1 y1).Start :=
  ⟨abs_nonneg _, neg_nonpos.2 (abs_nonneg _), rfl, stepSign_unit _ _, stepSign_unit _ _⟩

theorem lineSteps_lineSetup : (lineSetup x0 y0 x1 y1).lineSteps = max (x1 - x0).natAbs (y1 - y0).natAbs := by
  simp [LineRegs.lineSteps, lineSetup, Int.natAbs_abs]

theorem dx_lineSetup : (lineSetup x0 y0 x1 y1).dx = |x1 - x0| := rfl

theorem dy_lineSetup : (lineSetup x0 y0 x1 y1).dy = -|y1 - y0| := rfl

theorem linePoint_zero : linePoint (lineSetup x0 y0 x1 y1) 0 = (x0, y0) := rfl

theorem linePoint_lineSteps :
    linePoint (lineSetup x0 y0 x1 y1) (lineSetup x0 y0 x1 y1).lineSteps = (x1, y1) := by
  have hr := lineSetup_start x0 y0 x1 y1
  obtain ⟨i, j, heq, h⟩ := hr.linePoint_eq (lineSetup x0 y0 x1 y1).lineSteps
  obtain ⟨hi, hj⟩ := (hr.steps_le h le_rfl).2 rfl
  rw [heq, hi, hj, dy_lineSetup, neg_neg]
  exact Prod.ext (add_abs_mul_stepSign x0 x1) (add_abs_mul_stepSign y0 y1)

/-- No point leaves the box of the endpoints. -/
theorem linePoint_mem_box {n : Nat} (hn : n ≤ (lineSetup x0 y0 x1 y1).lineSteps) :
    (linePoint (lineSetup x0 y0 x1 y1) n).1 ∈ Set.Icc (min x0 x1) (max x0 x1) ∧
      (linePoint (lineSetup x0 y0 x1 y1) n).2 ∈ Set.Icc (min y0 y1) (max y0 y1) := by
  have hr := lineSetup_start x0 y0 x1 y1
  obtain ⟨i, j, heq, h⟩ := hr.linePoint_eq n
  obtain ⟨hi, hj⟩ := (hr.steps_le h hn).1
  rw [dy_lineSetup, neg_neg] at hj
  rw [heq]
  exact ⟨add_mul_stepSign_mem hi, add_mul_stepSign_mem hj⟩

end

/-- The points of a DRAWLINE are those of its iterations up to the last; the loop's bound is not reached. -/
theorem linePointsOf_eq_map_range (x0 y0 x1 y1 : Byte) :
    linePointsOf x0 y0 x1 y1 =
      (List.range ((lineSetup x0.toNat y0.toNat x1.toNat y1.toNat).lineSteps + 1)).map
        (linePoint (lineSetup x0.toNat y0.toNat x1.toNat y1.toNat)) := by
  refine linePoints_eq_map_range ?_ (linePoint_lineSteps _ _ _ _) fun k hk heq => hk.ne ?_
  · rw [lineSteps_lineSetup, lineFuel]
    omega
  · exact (lineSetup_start _ _ _ _).linePoint_injective (heq.trans (linePoint_lineSteps _ _ _ _).symm)

end Sys2Proof.Machine

open Sys2Proof Sys2Proof.Machine

/-- Settles O26: the loop and the list of its points are one recursion. -/
theorem drawLinePlotsItsPoints : Obligations.DrawLinePlotsItsPoints :=
  fun _ _ _ _ mode s => congrArg Host.Outcome.next (rasterize_eq_foldl_plot _ _ mode lineFuel _ s)

/-- Settles O27: a DRAWLINE applies its mode to a pixel once for each point that falls on it. -/
theorem drawLineChangesExactlyItsPixels : Obligations.DrawLineChangesExactlyItsPixels := by
  intro x0 y0 x1 y1 mode s hs
  obtain ⟨m, hfold, hm, hbits⟩ := foldl_plot_spec (linePointsOf x0 y0 x1 y1) mode hs
  refine ⟨m, by rw [drawLinePlotsItsPoints, hfold], hm, fun x y hx hy => ?_⟩
  have hbit := hbits x y hx hy
  rw [pixelBit_of_lt hx hy, pixelBit_of_lt hx hy] at hbit
  exact hbit.trans (modeBit_iterate _ _ _)

/-- Settles O28: iteration `max(dx, |dy|)` is the first to plot the endpoint. -/
theorem lineHasMaxPlusOnePoints : Obligations.LineHasMaxPlusOnePoints := by
  intro x0 y0 x1 y1
  rw [linePointsOf_eq_map_range]
  refine ⟨?_, ?_, ?_⟩
  · rw [List.length_map, List.length_range, lineSteps_lineSetup]
  · rw [List.range_succ_eq_map, List.map_cons, List.head?_cons, linePoint_zero]
  · rw [List.range_succ, List.map_append, List.map_singleton, List.getLast?_concat, linePoint_lineSteps]

/-- Settles O29: the longer axis steps in every iteration, and no axis beyond its end. -/
theorem linePointsAreDistinctAndConnected : Obligations.LinePointsAreDistinctAndConnected := by
  intro x0 y0 x1 y1
  have hr := lineSetup_start x0.toNat y0.toNat x1.toNat y1.toNat
  rw [linePointsOf_eq_map_range]
  refine ⟨List.nodup_range.map hr.linePoint_injective, ?_, fun p hp => ?_⟩
  · rw [List.isChain_map, List.isChain_range]
    exact fun n _ => ⟨hr.linePoint_injective.ne n.lt_succ_self.ne, hr.linePoint_succ_near n⟩
  · obtain ⟨n, hn, rfl⟩ := List.mem_map.1 hp
    have hbox := linePoint_mem_box _ _ _ _ (Nat.lt_succ_iff.1 (List.mem_range.1 hn))
    simpa [and_assoc] using hbox

/-- Settles O30: the bounds on how far the registers are from the ideal line, in every iteration. -/
theorem lineErrorStaysBounded : Obligations.LineErrorStaysBounded := by
  intro x0 y0 x1 y1 n
  have hr := lineSetup_start x0.toNat y0.toNat x1.toNat y1.toNat
  obtain ⟨i, j, heq, h⟩ := hr.iterate n
  have hbounds := hr.err_bounds h
  have hdx : (lineSetup x0.toNat y0.toNat x1.toNat y1.toNat).dx ≤ 255 := by
    rw [dx_lineSetup, abs_le]
    omega
  have hdy : -255 ≤ (lineSetup x0.toNat y0.toNat x1.toNat y1.toNat).dy := by
    rw [dy_lineSetup, neg_le_neg_iff, abs_le]
    omega
  rw [heq]
  simp only [LineRegs.stepped_dx, LineRegs.stepped_dy]
  omega

/-- Settles O31: fixed endpoints, so the loop is evaluated on each of them. -/
theorem goldenLinePoints : Obligations.GoldenLinePoints := by
  unfold Obligations.GoldenLinePoints
  decide

end

section
/-! SUPPORT. A bus command as a list of transactions run in order (spec/42_bus.md R137 to R146), what such a list does
under any answers (R133), and the framing of its events (R147, R148). -/

namespace Sys2Proof.Machine

/-! ## The transactions of a bus command -/

/-- One transaction to run: its control byte and its payload (R133). -/
structure Txn where
  ctrl : Byte
  payload : List Byte

/-- The bytes a transaction would write: the address byte, the control byte and the payload. -/
def Txn.bytes (dev : Byte) (x : Txn) : List Byte := dev :: x.ctrl :: x.payload

/-- The single-item command transaction of a byte. -/
def Txn.command (c : Byte) : Txn := ⟨ctrlCmd, [c]⟩

@[simp] theorem Txn.length_bytes (dev : Byte) (x : Txn) : (x.bytes dev).length = x.payload.length + 2 := rfl

/-- Transactions run in order, each to completion whatever the earlier results (R137). -/
def runTxns : List Txn → State → Option State
  | [], s => some s
  | x :: xs, s => (busTxn x.ctrl x.payload s).bind (runTxns xs)

/-- The transactions of a command, none for a command that does not use the bus. -/
def busTxns (i : Instr) (s : State) : List Txn :=
  match i with
  | .setPixel _ _ _ | .getPixel _ _ | .writeChar _ _ | .scroll | .setCursor _ _ | .clear | .drawLine _ _ _ _ _ => []
  | .sendCmd byte => [.command byte]
  | .sendData byte => [⟨ctrlData, [byte]⟩]
  | .refresh => s.cfg.refreshPreamble.map .command ++ [⟨ctrlData, s.fb.bytes⟩]
  | .setBrightness level => [.command s.cfg.cmdContrast, .command level]
  | .sleep | .turnOff => [.command s.cfg.cmdDisplayOff]
  | .wake | .turnOn => [.command s.cfg.cmdDisplayOn]
  | .init => [⟨ctrlCmd, initBytes s.cfg⟩]

theorem runTxns_singleton (x : Txn) (s : State) : runTxns [x] s = busTxn x.ctrl x.payload s :=
  Option.bind_fun_some _

theorem runTxns_append (xs ys : List Txn) (s : State) : runTxns (xs ++ ys) s = (runTxns xs s).bind (runTxns ys) := by
  induction xs generalizing s with
  | nil => rfl
  | cons x xs ih =>
    rw [List.cons_append, runTxns, runTxns, Option.bind_assoc]
    exact congrArg _ (funext ih)

theorem commandTxns_eq_runTxns (cs : List Byte) (s : State) : commandTxns cs s = runTxns (cs.map .command) s := by
  induction cs generalizing s with
  | nil => rfl
  | cons c cs ih =>
    rw [commandTxns, List.map_cons, runTxns]
    show _ = (busTxn ctrlCmd [c] s).bind _
    cases busTxn ctrlCmd [c] s with
    | none => rfl
    | some t => exact ih t

/-- A bus command runs its transactions. -/
theorem exec_eq_runTxns {i : Instr} (hi : isBusCommand i = true) (s : State) :
    exec i s = busOutcome (runTxns (busTxns i s) s) := by
  cases i with
  | sendCmd | sendData | sleep | wake | turnOff | turnOn | init =>
    rw [busTxns, runTxns_singleton]
    rfl
  | refresh =>
    simp only [exec, execRefresh, busTxns, runTxns_append, commandTxns_eq_runTxns, funext (runTxns_singleton _)]
  | setBrightness => exact congrArg busOutcome (commandTxns_eq_runTxns _ s)
  | setPixel | getPixel | writeChar | scroll | setCursor | clear | drawLine => nomatch hi

/-- The bytes that R138 to R146 list are those of the command's transactions. -/
theorem txnsOf_eq_map (i : Instr) (s : State) : txnsOf i s = (busTxns i s).map (Txn.bytes s.cfg.devAddr) := by
  cases i with
  | refresh => simp [txnsOf, busTxns, Txn.bytes, Txn.command, ctrlCmd, ctrlData, ctrlByte, Function.comp_def]
  | _ => rfl

theorem busTxns_ne_nil {i : Instr} (hi : isBusCommand i = true) (s : State) : busTxns i s ≠ [] := by
  cases i with
  | refresh => exact List.append_ne_nil_of_right_ne_nil _ (List.cons_ne_nil _ _)
  | setPixel | getPixel | writeChar | scroll | setCursor | clear | drawLine => nomatch hi
  | _ => exact List.cons_ne_nil _ _

/-! ## What a list of transactions does, whatever the answers -/

/-- A list of transactions: everything it can do (R133, R137). -/
theorem runTxns_spec {xs : List Txn} {s t : State} (hxs : xs ≠ []) (h : runTxns xs s = some t) :
    ∃ evs r, AreTxns (xs.map (Txn.bytes s.cfg.devAddr)) r evs ∧ t.trace = s.trace ++ evs ∧ t.result = ackResult r ∧
      t.bus.phase = .idle ∧ BusFrame s t ∧ t.oracle = s.oracle.dropAnswers (writesIn evs) := by
  induction xs generalizing s with
  | nil => exact absurd rfl hxs
  | cons x xs ih =>
    obtain ⟨u, hu, ht⟩ := Option.bind_eq_some_iff.1 h
    obtain ⟨evs, htxn, htrace, hresult, hphase, hframe, horacle⟩ := busTxn_spec hu
    by_cases hnil : xs = []
    · subst hnil
      obtain rfl := Option.some.inj ht
      exact ⟨evs, _, .one htxn, htrace, hresult, hphase, hframe, horacle⟩
    · obtain ⟨evs', r, htxns, htrace', hresult', hphase', hframe', horacle'⟩ := ih hnil ht
      rw [hframe.cfg] at htxns
      refine ⟨evs ++ evs', r, .cons htxn htxns, ?_, hresult', hphase', hframe.trans hframe', ?_⟩
      · rw [htrace', htrace, List.append_assoc]
      · rw [horacle', horacle, Oracle.dropAnswers_dropAnswers, writesIn, writesIn, writesIn, List.countP_append]

theorem runTxns_isSome (xs : List Txn) {s : State} (h : s.oracle.NoStall) : ∃ t, runTxns xs s = some t := by
  induction xs generalizing s with
  | nil => exact ⟨s, rfl⟩
  | cons x xs ih =>
    obtain ⟨u, hu, hstall⟩ := busTxn_isSome x.ctrl x.payload h
    obtain ⟨t, ht⟩ := ih hstall
    exact ⟨t, by rw [runTxns, hu, Option.bind_some, ht]⟩

/-! ## The framing of the events (R136, R147, R148) -/

@[simp] theorem frameScan_cons (dev : Byte) (st : FrameState) (e : BusEvent) (es : List BusEvent) :
    frameScan dev st (e :: es) = (frameStep dev st e).bind (frameScan dev · es) := by
  rw [frameScan]
  cases frameStep dev st e <;> rfl

theorem frameScan_append (dev : Byte) (st : FrameState) (es fs : List BusEvent) :
    frameScan dev st (es ++ fs) = (frameScan dev st es).bind (frameScan dev · fs) := by
  induction es generalizing st with
  | nil => rfl
  | cons e es ih => simp only [List.cons_append, frameScan_cons, ih, Option.bind_assoc]

theorem framed_iff {dev : Byte} {evs : List BusEvent} : framed dev evs = true ↔ frameScan dev .closed evs = some .closed :=
  beq_iff_eq

theorem framed_append {dev : Byte} {es fs : List BusEvent} (hes : framed dev es = true) (hfs : framed dev fs = true) :
    framed dev (es ++ fs) = true := by
  rw [framed_iff] at *
  rw [frameScan_append, hes, Option.bind_some, hfs]

/-- After an acknowledged byte the rest of a transaction closes it. -/
theorem frameScan_acked (dev : Byte) (sent : List Byte) (last : Byte) (r : Ack) :
    frameScan dev .acked (sent.map (.wr · .ack) ++ [.wr last r, .stop]) = some .closed := by
  induction sent with
  | nil => cases r <;> rfl
  | cons b sent ih => exact ih

theorem IsTxn.framed {dev : Byte} {bytes : List Byte} {r : Ack} {evs : List BusEvent}
    (h : IsTxn (dev :: bytes) r evs) : framed dev evs = true := by
  obtain ⟨sent, last, unsent, hbytes, -, rfl⟩ := h
  rw [framed_iff]
  cases sent with
  | nil =>
    obtain ⟨rfl, -⟩ := List.cons.inj hbytes
    cases r <;> simp [frameScan, frameStep]
  | cons b sent =>
    obtain ⟨rfl, -⟩ := List.cons.inj hbytes
    simpa [frameStep] using frameScan_acked dev sent last r

/-- Transactions one after another are framed, each starting with the address byte. -/
theorem AreTxns.framed {dev : Byte} {txns : List (List Byte)} {r : Ack} {evs : List BusEvent}
    (h : AreTxns txns r evs) (hdev : ∀ bytes ∈ txns, ∃ later, bytes = dev :: later) : framed dev evs = true := by
  induction h with
  | one htxn =>
    obtain ⟨later, rfl⟩ := hdev _ List.mem_cons_self
    exact htxn.framed
  | cons htxn _ ih =>
    obtain ⟨later, rfl⟩ := hdev _ List.mem_cons_self
    exact framed_append htxn.framed (ih fun bytes h => hdev bytes (List.mem_cons_of_mem _ h))

/-- In a framed trace the address byte follows each START (R136). -/
theorem start_followed_by_dev {dev : Byte} {st : FrameState} {evs : List BusEvent} {n : Nat}
    (h : frameScan dev st evs = some .closed) (hn : evs[n]? = some .start) :
    ∃ answer, evs[n + 1]? = some (.wr dev answer) := by
  induction evs generalizing st n with
  | nil => exact absurd hn (by simp)
  | cons e evs ih =>
    obtain ⟨st', hstep, hrest⟩ := Option.bind_eq_some_iff.1 ((frameScan_cons ..).symm.trans h)
    cases n with
    | succ n => exact ih hrest hn
    | zero =>
      obtain rfl : e = .start := Option.some.inj hn
      obtain rfl : st' = .opened := by cases st <;> simp_all [frameStep]
      cases evs with
      | nil => exact absurd hrest (by simp [frameScan])
      | cons e' evs =>
        cases e' with
        | wr b a =>
          by_cases hb : b = dev
          · exact ⟨a, by simp [hb]⟩
          · exact absurd hrest (by simp [frameStep, hb])
        | start | stop => exact absurd hrest (by simp [frameStep])

/-- The events of any command are framed; those of a command that does not use the bus are none. -/
theorem exec_emits_framed {i : Instr} {s t : State} (h : exec i s = .next t) :
    ∃ evs, t.trace = s.trace ++ evs ∧ framed s.cfg.devAddr evs = true := by
  cases hi : isBusCommand i with
  | false => exact ⟨[], by rw [(exec_framebufferFrame hi h).trace, List.append_nil], rfl⟩
  | true =>
    rw [exec_eq_runTxns hi, busOutcome_eq_next] at h
    obtain ⟨evs, r, htxns, htrace, -⟩ := runTxns_spec (busTxns_ne_nil hi s) h
    refine ⟨evs, htrace, htxns.framed fun bytes hbytes => ?_⟩
    obtain ⟨x, -, rfl⟩ := List.mem_map.1 hbytes
    exact ⟨_, rfl⟩

end Sys2Proof.Machine

open Sys2Proof Sys2Proof.Machine

/-- Settles O54: a command appends whole transactions, a reset empties TRACE, and the rest of a step leaves it. -/
theorem everyStepKeepsTheTraceFramed : Obligations.EveryStepKeepsTheTraceFramed := by
  intro s t hs h
  refine step_keeps (P := fun u => framed u.cfg.devAddr u.trace = true) (fun _ _ hu => hu) (fun _ _ hu => hu)
    (fun _ _ _ _ hu => hu) (fun u i v _ hv hu => ?_) (fun _ _ _ => rfl) h hs
  obtain ⟨evs, htrace, hevs⟩ := exec_emits_framed hv
  rw [htrace, exec_cfg hv]
  exact framed_append hu hevs

/-- Settles O33: the framing of a command's events asks for DEV_ADDR after each START. -/
theorem addressByteIsFirstAndWrites : Obligations.AddressByteIsFirstAndWrites := by
  refine ⟨fun cfg => ⟨Config.devAddr_toNat cfg, writeAddress cfg, fun h => ?_⟩, fun i s t h => ?_⟩
  · rw [h]
    exact ⟨rfl, rfl⟩
  · obtain ⟨evs, htrace, hevs⟩ := exec_emits_framed h
    exact ⟨evs, htrace, fun n hn => start_followed_by_dev (framed_iff.1 hevs) hn⟩

/-- Settles O35: a bus command runs its transactions, and this is all that transactions do. -/
theorem busCommandEmitsItsTransactions : Obligations.BusCommandEmitsItsTransactions := by
  intro i s t hi h
  rw [exec_eq_runTxns hi, busOutcome_eq_next] at h
  rw [txnsOf_eq_map]
  exact runTxns_spec (busTxns_ne_nil hi s) h

/-- Settles O36: with no STALL to come every transaction completes, and O35 says what has then happened. -/
theorem busCommandCompletesWithoutStall : Obligations.BusCommandCompletesWithoutStall := by
  intro i s hi hstall
  obtain ⟨t, ht⟩ := runTxns_isSome (busTxns i s) hstall
  have hexec : exec i s = .next t := by rw [exec_eq_runTxns hi, ht]; rfl
  obtain ⟨evs, r, htxns, htrace, hresult, hphase, hframe, horacle⟩ := busCommandEmitsItsTransactions i s t hi hexec
  exact ⟨t, evs, r, hexec, htxns, htrace, hresult, hphase, hframe, horacle ▸ hstall.dropAnswers _⟩

/-- Settles O32: both control bytes, bit by bit. -/
theorem controlBytesSelectByBitSix : Obligations.ControlBytesSelectByBitSix := by
  unfold Obligations.ControlBytesSelectByBitSix
  decide

/-- Settles O42: the commands of a pair have one meaning; the four words differ in OPC. -/
theorem sleepIsTurnOffAndWakeIsTurnOn : Obligations.SleepIsTurnOffAndWakeIsTurnOn :=
  ⟨fun _ => ⟨rfl, rfl⟩, by decide⟩

end

section
/-! SUPPORT. What a transaction does under given answers (spec/42_bus.md R131, R133): the events of its bytes computed
from the answers alone, and the three ways it can go: every byte acknowledged, one not acknowledged, one stalled. -/

namespace Sys2Proof.Machine

/-! ## Answers by their number -/

theorem nextAnswer_fst (o : Oracle) : (nextAnswer o).1 = o.answerAt 0 := by
  obtain ⟨placed, rest⟩ := o
  cases placed <;> rfl

theorem Oracle.answerAt_dropAnswers (o : Oracle) (m n : Nat) : (o.dropAnswers m).answerAt n = o.answerAt (m + n) := by
  simp [Oracle.answerAt, Oracle.dropAnswers, List.getD_eq_getElem?_getD]

theorem Oracle.AllAck.answerAt {o : Oracle} (h : o.AllAck) (n : Nat) : o.answerAt n = .ack := by
  rw [← Nat.add_zero n, ← answerAt_dropAnswers, ← nextAnswer_fst, nextAnswer_eq_ack (h.dropAnswers n)]

/-- The first `n` bytes still to be written are acknowledged. -/
def Oracle.Acks (o : Oracle) (n : Nat) : Prop := ∀ j, j < n → o.answerAt j = .ack

theorem Oracle.Acks.mono {o : Oracle} {m n : Nat} (h : o.Acks n) (hm : m ≤ n) : o.Acks m :=
  fun j hj => h j (hj.trans_le hm)

theorem Oracle.Acks.dropAnswers {o : Oracle} {m n : Nat} (h : o.Acks (m + n)) : (o.dropAnswers m).Acks n := by
  intro j hj
  rw [answerAt_dropAnswers]
  exact h _ (Nat.add_lt_add_left hj m)

/-! ## The events of a run of bytes, from the answers alone -/

/-- The bytes' writes with their answers, up to the first not acknowledged; none when one is answered STALL before that. -/
def writeEvents : List Byte → Oracle → Option (List BusEvent)
  | [], _ => some []
  | b :: bs, o =>
    match o.answerAt 0 with
    | .ack => (writeEvents bs (o.dropAnswers 1)).map (.wr b .ack :: ·)
    | .nack => some [.wr b .nack]
    | .stall => none

/-- Acknowledged bytes are written, and the run goes on with the answers after theirs. -/
theorem writeEvents_append {sent : List Byte} {o : Oracle} (h : o.Acks sent.length) (bs : List Byte) :
    writeEvents (sent ++ bs) o = (writeEvents bs (o.dropAnswers sent.length)).map (sent.map (.wr · .ack) ++ ·) := by
  induction sent generalizing o with
  | nil => simp [Oracle.dropAnswers]
  | cons b sent ih =>
    have htail : (o.dropAnswers 1).Acks sent.length := Oracle.Acks.dropAnswers (Nat.add_comm .. ▸ h)
    rw [List.cons_append, writeEvents, h 0 (Nat.zero_lt_succ _)]
    simp [ih htail, Oracle.dropAnswers_dropAnswers, Nat.add_comm, Function.comp_def]

theorem busWrite_eq_map (b : Byte) (s : State) :
    busWrite b s = (answerAck (s.oracle.answerAt 0)).map fun a =>
      ((s.withOracle (s.oracle.dropAnswers 1)).emit (.wr b a)).withBus { s.bus with ackr := a } := by
  rw [busWrite, nextAnswer_fst, nextAnswer_snd]
  cases answerAck (s.oracle.answerAt 0) <;> rfl

theorem sendPayload_trace (p : List Byte) (s : State) :
    (sendPayload p s).map State.trace = (writeEvents p s.oracle).map (s.trace ++ ·) := by
  induction p generalizing s with
  | nil => simp [sendPayload, writeEvents]
  | cons b bs ih =>
    rcases h : s.oracle.answerAt 0 <;>
      simp [sendPayload, writeEvents, busWrite_eq_map, h, answerAck, ih, Function.comp_def]

theorem sendCtrl_trace (ctrl : Byte) (p : List Byte) (s : State) :
    (sendCtrl ctrl p s).map State.trace = (writeEvents (ctrl :: p) s.oracle).map (s.trace ++ ·) := by
  rcases h : s.oracle.answerAt 0 <;>
    simp [sendCtrl, writeEvents, busWrite_eq_map, h, answerAck, sendPayload_trace, Function.comp_def]

theorem sendAddr_trace (ctrl : Byte) (p : List Byte) (s : State) :
    (sendAddr ctrl p s).map State.trace =
      (writeEvents (s.cfg.devAddr :: ctrl :: p) s.oracle).map (s.trace ++ ·) := by
  rw [writeEvents]
  rcases h : s.oracle.answerAt 0 <;>
    simp [sendAddr, busWrite_eq_map, h, answerAck, sendCtrl_trace, Function.comp_def]

/-- A transaction stalls, or appends START, its bytes' writes and STOP, as the answers say. -/
theorem busTxn_trace (x : Txn) (s : State) :
    (busTxn x.ctrl x.payload s).map State.trace =
      (writeEvents (x.bytes s.cfg.devAddr) s.oracle).map fun evs => s.trace ++ .start :: (evs ++ [.stop]) := by
  have h := congrArg (Option.map (· ++ [.stop])) (sendAddr_trace x.ctrl x.payload (busStart s))
  rw [Option.map_map, Option.map_map] at h
  rw [busTxn, Option.map_map]
  refine (h : _).trans (congrArg (Option.map · _) (funext fun evs => ?_))
  simp [busStart]

/-! ## The three ways a transaction can go -/

/-- A transaction whose writes are known: what it has done when it completes. -/
theorem busTxn_of_writeEvents {x : Txn} {s : State} {evs : List BusEvent} {b : Byte} {a : Ack}
    (h : writeEvents (x.bytes s.cfg.devAddr) s.oracle = some (evs ++ [.wr b a])) :
    ∃ t, busTxn x.ctrl x.payload s = some t ∧ t.trace = s.trace ++ .start :: (evs ++ [.wr b a, .stop]) ∧
      t.result = ackResult a ∧ BusFrame s t ∧ t.oracle = s.oracle.dropAnswers (evs.length + 1) := by
  have htrace := busTxn_trace x s
  rw [h, Option.map_some, Option.map_eq_some_iff] at htrace
  obtain ⟨t, ht, htrace⟩ := htrace
  obtain ⟨evs', ⟨sent, last, unsent, -, -, rfl⟩, htrace', hresult, -, hframe, horacle⟩ := busTxn_spec ht
  obtain ⟨-, hevs⟩ := List.cons.inj (List.append_cancel_left (htrace'.symm.trans htrace))
  rw [List.append_cons] at hevs
  obtain ⟨rfl, hlast⟩ := List.append_inj' (List.append_cancel_right hevs) rfl
  obtain ⟨-, hackr⟩ := BusEvent.wr.inj (List.singleton_inj.1 hlast)
  refine ⟨t, ht, by simpa using htrace, hackr ▸ hresult, hframe, ?_⟩
  rw [horacle, writesIn_txn, List.length_map]

/-- Every byte acknowledged: all are sent (R133). -/
theorem busTxn_acked {x : Txn} {s : State} (h : s.oracle.Acks (x.payload.length + 2)) :
    ∃ t, busTxn x.ctrl x.payload s = some t ∧ t.trace = s.trace ++ ackedTxn (x.bytes s.cfg.devAddr) ∧
      t.result = 0x01#8 ∧ BusFrame s t ∧ t.oracle = s.oracle.dropAnswers (x.payload.length + 2) := by
  obtain ⟨sent, last, hbytes⟩ := List.eq_nil_or_concat' (x.bytes s.cfg.devAddr) |>.resolve_left (List.cons_ne_nil _ _)
  have hlen : x.payload.length + 2 = sent.length + 1 := by
    rw [← x.length_bytes s.cfg.devAddr, hbytes, List.length_append, List.length_singleton]
  rw [hlen] at h
  have hlast : (s.oracle.dropAnswers sent.length).answerAt 0 = .ack := by
    rw [Oracle.answerAt_dropAnswers]
    exact h _ (Nat.lt_succ_self _)
  obtain ⟨t, ht, htrace, hresult, hframe, horacle⟩ := busTxn_of_writeEvents
    (x := x) (s := s) (evs := sent.map (.wr · .ack)) (b := last) (a := .ack)
    (by rw [hbytes, writeEvents_append (h.mono (Nat.le_succ _))]; simp [writeEvents, hlast])
  refine ⟨t, ht, ?_, hresult, hframe, ?_⟩
  · rw [htrace, hbytes]
    simp [ackedTxn]
  · rw [horacle, hlen, List.length_map]

/-- A byte not acknowledged after others that were: it is the last one sent (R133, R135). -/
theorem busTxn_nacked {x : Txn} {s : State} {sent unsent : List Byte} {b : Byte}
    (hbytes : x.bytes s.cfg.devAddr = sent ++ b :: unsent) (h : s.oracle.Acks sent.length)
    (hb : s.oracle.answerAt sent.length = .nack) :
    ∃ t, busTxn x.ctrl x.payload s = some t ∧
      t.trace = s.trace ++ .start :: (sent.map (.wr · .ack) ++ [.wr b .nack, .stop]) ∧ t.result = 0x00#8 ∧
      BusFrame s t ∧ t.oracle = s.oracle.dropAnswers (sent.length + 1) := by
  have hnext : (s.oracle.dropAnswers sent.length).answerAt 0 = .nack := by rw [Oracle.answerAt_dropAnswers]; exact hb
  have hevents : writeEvents (x.bytes s.cfg.devAddr) s.oracle = some (sent.map (.wr · .ack) ++ [.wr b .nack]) := by
    rw [hbytes, writeEvents_append h, writeEvents, hnext]
    rfl
  simpa [ackResult] using busTxn_of_writeEvents hevents

/-- A byte answered STALL after others that were acknowledged: the transaction does not complete (R131, R199). -/
theorem busTxn_stalled {x : Txn} {s : State} {k : Nat} (hk : k < x.payload.length + 2) (h : s.oracle.Acks k)
    (hstall : s.oracle.answerAt k = .stall) : busTxn x.ctrl x.payload s = none := by
  have hk' : k < (x.bytes s.cfg.devAddr).length := hk
  have hlen : ((x.bytes s.cfg.devAddr).take k).length = k := List.length_take_of_le hk'.le
  have hnext : (s.oracle.dropAnswers k).answerAt 0 = .stall := by rw [Oracle.answerAt_dropAnswers]; exact hstall
  have hevents : writeEvents (x.bytes s.cfg.devAddr) s.oracle = none := by
    rw [← List.take_append_drop k (x.bytes s.cfg.devAddr), writeEvents_append (hlen.symm ▸ h), hlen,
      List.drop_eq_getElem_cons hk', writeEvents, hnext]
    rfl
  have htrace := busTxn_trace x s
  rwa [hevents, Option.map_none, Option.map_eq_none_iff] at htrace

/-! ## Lists of transactions -/

/-- The number of bytes that transactions write when all are acknowledged. -/
def byteCount (xs : List Txn) : Nat := (xs.map fun x => x.payload.length + 2).sum

theorem byteCount_cons (x : Txn) (xs : List Txn) : byteCount (x :: xs) = x.payload.length + 2 + byteCount xs :=
  List.sum_cons

theorem sum_length_txnsOf (i : Instr) (s : State) : ((txnsOf i s).map List.length).sum = byteCount (busTxns i s) := by
  rw [txnsOf_eq_map, List.map_map]
  rfl

/-- Every byte acknowledged: every transaction is sent whole (R137). -/
theorem runTxns_acked {xs : List Txn} {s : State} (hxs : xs ≠ []) (h : s.oracle.Acks (byteCount xs)) :
    ∃ t, runTxns xs s = some t ∧ t.trace = s.trace ++ (xs.map (Txn.bytes s.cfg.devAddr)).flatMap ackedTxn ∧
      t.result = 0x01#8 ∧ BusFrame s t := by
  induction xs generalizing s with
  | nil => exact absurd rfl hxs
  | cons x xs ih =>
    rw [byteCount_cons] at h
    obtain ⟨u, hu, htrace, hresult, hframe, horacle⟩ := busTxn_acked (h.mono (Nat.le_add_right ..))
    by_cases hnil : xs = []
    · subst hnil
      exact ⟨u, by rw [runTxns_singleton, hu], by simpa using htrace, hresult, hframe⟩
    · obtain ⟨t, ht, htrace', hresult', hframe'⟩ := ih hnil (horacle ▸ h.dropAnswers)
      refine ⟨t, by rw [runTxns, hu, Option.bind_some, ht], ?_, hresult', hframe.trans hframe'⟩
      rw [htrace', htrace, hframe.cfg, List.append_assoc, List.map_cons, List.flatMap_cons]

/-- A byte answered STALL after others that were acknowledged: no outcome, in whichever transaction it stands (R199). -/
theorem runTxns_stalled {xs : List Txn} {s : State} {k : Nat} (hk : k < byteCount xs) (h : s.oracle.Acks k)
    (hstall : s.oracle.answerAt k = .stall) : runTxns xs s = none := by
  induction xs generalizing s k with
  | nil => exact absurd hk (Nat.not_lt_zero k)
  | cons x xs ih =>
    rw [runTxns]
    by_cases hx : k < x.payload.length + 2
    · rw [busTxn_stalled hx h hstall, Option.bind_none]
    · obtain ⟨m, rfl⟩ := Nat.exists_eq_add_of_le (Nat.le_of_not_lt hx)
      obtain ⟨u, hu, -, -, -, horacle⟩ := busTxn_acked (h.mono (Nat.le_add_right ..))
      rw [hu, Option.bind_some]
      refine ih (k := m) (by rw [byteCount_cons] at hk; omega) (horacle ▸ h.dropAnswers) ?_
      rw [horacle, Oracle.answerAt_dropAnswers, hstall]

@[simp] theorem length_ackedTxn (bytes : List Byte) : (ackedTxn bytes).length = bytes.length + 2 := by
  simp [ackedTxn]

/-- An acknowledged bus command sends every byte of its transactions (R138 to R146). -/
theorem exec_acked {i : Instr} {s : State} (hi : isBusCommand i = true) (h : s.oracle.AllAck) :
    ∃ t, exec i s = .next t ∧ t.trace = s.trace ++ (txnsOf i s).flatMap ackedTxn ∧ t.result = 0x01#8 ∧ BusFrame s t := by
  obtain ⟨t, ht, hrest⟩ := runTxns_acked (busTxns_ne_nil hi s) fun j _ => h.answerAt j
  refine ⟨t, by rw [exec_eq_runTxns hi, ht]; rfl, ?_⟩
  rwa [txnsOf_eq_map]

/-- An acknowledged bus command appends two events more than the bytes of each transaction (R148 law 3). -/
theorem exec_acked_length {i : Instr} {s : State} (hi : isBusCommand i = true) (h : s.oracle.AllAck) :
    ∃ t, exec i s = .next t ∧ t.trace.length = s.trace.length + ((txnsOf i s).map (·.length + 2)).sum := by
  obtain ⟨t, ht, htrace, -⟩ := exec_acked hi h
  exact ⟨t, ht, by rw [htrace, List.length_append, List.length_flatMap]; simp⟩

end Sys2Proof.Machine

open Sys2Proof Sys2Proof.Machine

/-- Settles O37: no byte of any transaction ends it early. -/
theorem acknowledgedBusCommandSendsEverything : Obligations.AcknowledgedBusCommandSendsEverything :=
  fun _ _ => exec_acked

/-- Settles O38: the counts follow from the numbers of bytes. -/
theorem acknowledgedEventCounts : Obligations.AcknowledgedEventCounts := by
  intro s h
  refine ⟨fun byte => ?_, fun level => ?_, ?_, fun hpre => ?_⟩
  · simpa [txnsOf] using exec_acked_length (i := .sendCmd byte) rfl h
  · simpa [txnsOf] using exec_acked_length (i := .setBrightness level) rfl h
  · simpa [txnsOf, initBytes] using exec_acked_length (i := .init) rfl h
  · simpa [txnsOf, hpre, Memory.bytes_length, fbSize, Function.comp_def] using exec_acked_length (i := .refresh) rfl h

/-- Settles O39: the command is its one transaction. -/
theorem failedByteEndsTheTransaction : Obligations.FailedByteEndsTheTransaction := by
  intro i s bytes k hk hi htxns hacks hnack
  rw [txnsOf_eq_map] at htxns
  obtain ⟨x, hx, hbytes⟩ := List.map_eq_singleton_iff.1 htxns
  have hlen : (bytes.take k).length = k := List.length_take_of_le hk.le
  have hsplit : x.bytes s.cfg.devAddr = bytes.take k ++ bytes[k] :: bytes.drop (k + 1) := by
    rw [hbytes, ← List.drop_eq_getElem_cons hk, List.take_append_drop]
  obtain ⟨t, ht, htrace, hresult, hframe, -⟩ := busTxn_nacked hsplit (hlen.symm ▸ hacks) (hlen.symm ▸ hnack)
  exact ⟨t, by rw [exec_eq_runTxns hi, hx, runTxns_singleton, ht]; rfl, htrace, hresult, hframe⟩

/-- Settles O40: the transactions before the stalled byte's complete, and its own does not. -/
theorem stalledByteLeavesNoOutcome : Obligations.StalledByteLeavesNoOutcome := by
  intro i s k hi hk hacks hstall
  rw [sum_length_txnsOf] at hk
  rw [exec_eq_runTxns hi, runTxns_stalled hk hacks hstall]
  rfl

/-- Settles O41: the failed selector takes one answer, and the level's transaction has the rest. -/
theorem setBrightnessHidesAFailedSelector : Obligations.SetBrightnessHidesAFailedSelector := by
  intro level s later hplaced hlater
  obtain ⟨u, hu, htrace, -, hframe, horacle⟩ := busTxn_nacked (x := .command s.cfg.cmdContrast) (s := s) (sent := []) rfl
    (fun j hj => absurd hj (Nat.not_lt_zero j)) (by simp [Oracle.answerAt, hplaced])
  have hack : u.oracle.AllAck := by
    rw [horacle, Oracle.dropAnswers, hplaced]
    exact hlater
  obtain ⟨t, ht, htrace', hresult', hframe'⟩ :=
    runTxns_acked (xs := [.command level]) (List.cons_ne_nil _ _) fun j _ => hack.answerAt j
  refine ⟨t, ?_, ?_, hresult', hframe.trans hframe'⟩
  · rw [exec_eq_runTxns rfl, busTxns, runTxns, hu, Option.bind_some, ht]
    rfl
  · rw [htrace', htrace, hframe.cfg]
    simp [Txn.bytes, Txn.command, ctrlCmd, ctrlByte]

end

section
/-! SUPPORT. R132's table row by row, and the part of R133's procedure that each phase stands for. -/

namespace Sys2Proof.Machine

/-- STOP leaves the same state whatever the phase it came from. -/
theorem busStop_withBus {s : State} {a : Ack} (h : s.bus.ackr = a) (phase : Phase) :
    busStop (s.withBus ⟨phase, s.bus.pidx, a⟩) = busStop s := by
  subst h
  rfl

section
variable (ctrl : Byte) (payload : List Byte)

/-- Between transactions the machine does nothing. -/
theorem engineRun_idle (n : Nat) {s : State} (h : s.bus.phase = .idle) : engineRun ctrl payload n s = some s := by
  induction n with
  | zero => rfl
  | succ n ih =>
    have hrow : enginePhase ctrl payload s = some s := by simp only [enginePhase, h]
    simp only [engineRun, hrow, ih]

/-- The STOP row is the procedure's end. -/
theorem engineRun_stop (n : Nat) {s : State} (h : s.bus.phase = .stop) :
    engineRun ctrl payload (n + 1) s = some (busStop s) := by
  have hrow : enginePhase ctrl payload s = some (busStop s) := by simp only [enginePhase, h, busStop]
  simp only [engineRun, hrow]
  exact engineRun_idle ctrl payload n rfl

/-- The PAYLOAD phase is the procedure's loop over the bytes left from PIDX on. -/
theorem engineRun_payload (n : Nat) {rest : List Byte} {s : State} (h : s.bus.phase = .payload)
    (hrest : payload.drop s.bus.pidx = rest) :
    engineRun ctrl payload (n + rest.length + 2) s = (sendPayload rest s).map busStop := by
  induction rest generalizing s with
  | nil =>
    have hend : payload[s.bus.pidx]? = none := List.getElem?_eq_none (List.drop_eq_nil_iff.1 hrest)
    rw [engineRun]
    simp only [enginePhase, h, hend]
    exact engineRun_stop ctrl payload n rfl
  | cons b rest ih =>
    have hb : payload[s.bus.pidx]? = some b := by
      rw [← Nat.add_zero s.bus.pidx, ← List.getElem?_drop, hrest, List.getElem?_cons_zero]
    have hrest' : payload.drop (s.bus.pidx + 1) = rest := by
      rw [← List.drop_drop, hrest, List.drop_one, List.tail_cons]
    have hmore : s.bus.pidx + 1 < payload.length ↔ rest ≠ [] := by
      rw [← hrest', Ne, List.drop_eq_nil_iff, Nat.not_le]
    rw [engineRun, sendPayload]
    simp only [enginePhase, h, hb]
    cases hwrite : busWrite b s with
    | none => rfl
    | some t =>
      obtain ⟨-, -, -, -, hphase, hpidx⟩ := busWrite_spec hwrite
      simp only [Option.map_some, hphase, h, hpidx, hmore, phaseAfter]
      cases t.bus.ackr with
      | nack =>
        rw [ite_self]
        exact engineRun_stop ctrl payload (n + (rest.length + 1)) rfl
      | ack =>
        by_cases hnil : rest = []
        · subst hnil
          exact engineRun_stop ctrl payload (n + 1) rfl
        · rw [if_pos hnil]
          exact ih (s := t.withBus ⟨.payload, s.bus.pidx + 1, .ack⟩) rfl hrest'

/-- The CTRL phase is the procedure from the control byte on. -/
theorem engineRun_ctrl (n : Nat) {s : State} (h : s.bus.phase = .ctrl) :
    engineRun ctrl payload (n + payload.length + 3) s = (sendCtrl ctrl payload s).map busStop := by
  rw [engineRun, sendCtrl]
  simp only [enginePhase, h]
  cases busWrite ctrl s with
  | none => rfl
  | some t =>
    simp only [Option.map_some]
    cases ha : t.bus.ackr with
    | ack => exact engineRun_payload ctrl payload n rfl (List.drop_zero ..)
    | nack => exact (engineRun_stop ctrl payload (n + payload.length + 1) rfl).trans (congrArg some (busStop_withBus ha .stop))

/-- The ADDR phase is the procedure from the address byte on. -/
theorem engineRun_addr (n : Nat) {s : State} (h : s.bus.phase = .addr) :
    engineRun ctrl payload (n + payload.length + 4) s = (sendAddr ctrl payload s).map busStop := by
  rw [engineRun, sendAddr]
  simp only [enginePhase, h]
  cases busWrite s.cfg.devAddr s with
  | none => rfl
  | some t =>
    simp only [Option.map_some, phaseAfter]
    cases ha : t.bus.ackr with
    | ack => exact engineRun_ctrl ctrl payload n rfl
    | nack => exact (engineRun_stop ctrl payload (n + payload.length + 2) rfl).trans (congrArg some (busStop_withBus ha .stop))

end

end Sys2Proof.Machine

open Sys2Proof Sys2Proof.Machine

/-- Settles O34: a request leads to the START row, and from ADDR on each phase is a part of the procedure. -/
theorem transactionMachineIsTheProcedure : Obligations.TransactionMachineIsTheProcedure := by
  intro ctrl payload s
  have hstart : enginePhase ctrl payload (requestTxn s) = some (busStart s) := rfl
  have haddr := engineRun_addr ctrl payload 0 (s := busStart s) rfl
  rw [Nat.zero_add] at haddr
  rw [busTxn, ← haddr, engineRun, hstart]

end

section
/-! SUPPORT. Faults and the port (spec/60_exceptions.md): what a submitted word does, what a halt keeps, and which
command raises a fault. -/

namespace Sys2Proof.Machine

/-! ## A submitted word (R171, R172, R187) -/

section
variable {s : State} {w : CmdWord}

theorem submitWord_of_halted (h : s.fault ≠ 0x00#8) : submitWord w s = .next (s.withReply .halted) := by
  rw [submitWord, if_pos (by simpa [State.halted] using h)]

theorem submitWord_of_decode_ok {i : Instr} (h : s.NoFault) (hd : decode w = .ok i) :
    submitWord w s = returnOutcome (exec i s) := by
  simp only [submitWord, halted_eq_false_iff.2 h, hd, Bool.false_eq_true, if_false]

theorem submitWord_of_decode_error {code : FaultCode} (h : s.NoFault) (hd : decode w = .error code) :
    submitWord w s = .next (answerOutcome (raiseFault code w s)) := by
  simp only [submitWord, halted_eq_false_iff.2 h, hd, Bool.false_eq_true, if_false]

end

/-- What the port gives back follows FAULT (R10). -/
theorem answerOutcome_eq (t : State) :
    answerOutcome t = t.withReply (if t.fault = 0x00#8 then .ok else .fault t.fault t.faultCmd) := by
  by_cases h : t.fault = 0x00#8 <;> simp [answerOutcome, State.halted, h]

theorem faultByte_ne_zero (code : FaultCode) : faultByte code ≠ 0x00#8 := by
  cases code <;> decide

/-- A fault is given back with its code and its word. -/
theorem answerOutcome_raiseFault (code : FaultCode) (w : CmdWord) (s : State) :
    answerOutcome (raiseFault code w s) =
      (s.withFault (faultByte code) w).withReply (.fault (faultByte code) w) :=
  (answerOutcome_eq _).trans (congrArg (State.withReply _) (if_neg (faultByte_ne_zero code)))

/-! ## Runs (R188) -/

/-- A run of more than no steps begins with a step that answers. -/
theorem runSteps_succ_eq_next {n : Nat} {s t : State} (h : runSteps (n + 1) s = .next t) :
    ∃ u, step s = .next u ∧ runSteps n u = .next t := by
  have hcore : Sys2Proof.core.step s = step s := rfl
  simp only [runSteps, Host.Core.run, hcore] at h
  cases hs : step s with
  | next u =>
    simp only [hs] at h
    exact ⟨u, rfl, h⟩
  | fault | refused => simp [hs] at h

/-- With no reset waiting, a step of a halted FBC changes the port and its reply only (R172). -/
theorem step_of_halted {s t : State} (hs : s.fault ≠ 0x00#8) (hreset : ∀ d, .reset d ∉ s.port)
    (h : step s = .next t) : t = { s with port := t.port, reply := t.reply } ∧ ∀ move ∈ t.port, move ∈ s.port := by
  obtain ⟨-, rfl⟩ | ⟨move, later, hport, -, hmove⟩ := step_eq_next_cases h
  · exact ⟨rfl, fun _ => id⟩
  · have hlater : ∀ m ∈ later, m ∈ s.port := fun m hm => hport ▸ List.mem_cons_of_mem move hm
    cases move with
    | submit w =>
      have hanswer := submitWord_of_halted (s := s.withPort later) (w := w) hs
      obtain rfl := Host.Outcome.next.inj (hanswer.symm.trans hmove)
      exact ⟨rfl, hlater⟩
    | readStatus number =>
      obtain rfl := Host.Outcome.next.inj hmove
      exact ⟨rfl, hlater⟩
    | reset draw => exact absurd (hport ▸ List.mem_cons_self) (hreset draw)

/-! ## The writer of FAULT after decode (R170) -/

/-- A cursor from which a glyph fits, the end of FB, and every other (R84). -/
theorem cursor_cases (c : BitVec 16) : c.toNat ≤ 1016 ∨ c.toNat = 1024 ∨ cursorOob c = true := by
  rw [cursorOob_iff]
  omega

/-- No command but WRITECHAR writes FAULT or FAULT_CMD (R170). -/
theorem exec_fault {i : Instr} {s t : State} (h : exec i s = .next t) (hi : opcodeOfInstr i ≠ .writeChar) :
    t.fault = s.fault ∧ t.faultCmd = s.faultCmd := by
  cases i with
  | setPixel | getPixel | setCursor | clear => obtain rfl := Host.Outcome.next.inj h; exact ⟨rfl, rfl⟩
  | scroll => obtain ⟨c, rfl, -⟩ := execScroll_frame h; exact ⟨rfl, rfl⟩
  | drawLine => obtain ⟨m, rfl⟩ := execDrawLine_frame h; exact ⟨rfl, rfl⟩
  | sendCmd | sendData | refresh | setBrightness | sleep | wake | turnOff | turnOn | init =>
    have hframe := exec_busFrame rfl h
    exact ⟨hframe.fault, hframe.faultCmd⟩
  | writeChar => exact absurd rfl hi

end Sys2Proof.Machine

open Sys2Proof Sys2Proof.Machine

/-- Settles O46, by induction on the steps: what is left at the port still holds no reset. -/
theorem haltLastsUntilReset : Obligations.HaltLastsUntilReset := by
  intro n
  induction n with
  | zero =>
    intro s t _ _ h
    obtain rfl : s = t := Host.Outcome.next.inj h
    rfl
  | succ n ih =>
    intro s t hs hreset h
    obtain ⟨u, hu, hrun⟩ := runSteps_succ_eq_next h
    obtain ⟨hkept, hport⟩ := step_of_halted hs hreset hu
    have hfault : u.fault = s.fault := by rw [hkept]
    rw [ih u t (hfault ▸ hs) (fun d hd => hreset d (hport _ hd)) hrun, hkept]

/-- Settles O47: a WRITECHAR whose glyph fits, after a scroll or without one, writes FB and CURSOR only. -/
theorem onlyWriteCharFaultsAfterDecode : Obligations.OnlyWriteCharFaultsAfterDecode := by
  intro i s t h
  cases i with
  | writeChar code noadv =>
    obtain hle | hend | hoob := cursor_cases s.cursor
    · obtain rfl := Host.Outcome.next.inj ((exec_writeChar_of_le code noadv hle).symm.trans h)
      exact .inl ⟨rfl, rfl⟩
    · obtain rfl := Host.Outcome.next.inj ((exec_writeChar_of_end code noadv hend).symm.trans h)
      exact .inl ⟨rfl, rfl⟩
    · obtain rfl := Host.Outcome.next.inj ((exec_writeChar_of_oob code noadv hoob).symm.trans h)
      obtain ⟨hne, hgt⟩ := cursorOob_iff.1 hoob
      exact .inr ⟨code, noadv, rfl, hne, hgt, rfl⟩
  | setPixel | getPixel | scroll | setCursor | clear | drawLine | sendCmd | sendData | refresh | setBrightness | sleep
  | wake | turnOff | turnOn | init => exact .inl (exec_fault h nofun)

/-- Settles O43: the step is the word's service, and only a completed command gives an outcome back. -/
theorem stepRunsTheDecodedCommand : Obligations.StepRunsTheDecodedCommand := by
  intro s w later i hidle hnofault hport hd
  have hstep : step s = returnOutcome (exec i (s.withPort later)) :=
    (step_eq_serveMove hidle hport).trans (submitWord_of_decode_ok hnofault hd)
  refine ⟨fun t h => ?_, fun r h => ?_, fun r h => ?_⟩
  · rw [hstep, h, ← answerOutcome_eq]
    rfl
  · rw [hstep, h]
    rfl
  · rw [hstep, h]
    rfl

/-- Settles O44: the fault's code is not 0, so the port gives it back with the word. -/
theorem undecodableWordFaults : Obligations.UndecodableWordFaults := by
  intro s w later code hidle hnofault hport hd
  rw [step_eq_serveMove hidle hport, ← answerOutcome_raiseFault]
  exact submitWord_of_decode_error hnofault hd

/-- Settles O45: the word is taken off the port and answered, neither decoded nor executed. -/
theorem haltedWordChangesNothing : Obligations.HaltedWordChangesNothing :=
  fun _ _ _ hidle hfault hport => (step_eq_serveMove hidle hport).trans (submitWord_of_halted hfault)

/-- Settles O50: the two cases in which no move is served. -/
theorem portServesOnlyBetweenCommands : Obligations.PortServesOnlyBetweenCommands := by
  refine ⟨fun s hport => ?_, fun s move later hport hbusy => ?_⟩
  · simp only [step, serveNext, hport]
  · simp only [step, serveNext, hport, if_neg hbusy]

end

section
/-! SUPPORT. The record of what the program has given (spec/60_exceptions.md R189, spec/70_reset_and_hazards.md R193):
one step past a run, a whole record under every command, and two memories that agree on the bits given. -/

namespace Sys2Proof.Machine

/-! ## What WRITECHAR gives, by where its cursor stands (R84) -/

section
variable {s : State} (m : Memory)

theorem giveGlyph_of_oob (h : cursorOob s.cursor = true) : giveGlyph s m = m := if_pos h

theorem giveGlyph_of_le (h : s.cursor.toNat ≤ 1016) : giveGlyph s m = giveBytes m s.cursor.toNat glyphBytes := by
  have hoob : ¬cursorOob s.cursor = true := by
    rw [cursorOob_iff]
    omega
  have hend : s.cursor.toNat ≠ fbSize := by
    simp only [fbSize]
    omega
  rw [giveGlyph, if_neg hoob, if_neg hend, scrollAtEnd, if_neg hend]

theorem giveGlyph_of_end (h : s.cursor.toNat = 1024) : giveGlyph s m = giveBytes (giveScroll m) lastRow glyphBytes := by
  have hoob : ¬cursorOob s.cursor = true := by
    rw [cursorOob_iff]
    omega
  rw [giveGlyph, if_neg hoob, if_pos h, scrollAtEnd, if_pos h]
  rfl

end

/-! ## One step past a run -/

theorem givenFrom_of_step {n : Nat} {s t : State} (g : Given) (h : step s = .next t) :
    givenFrom (n + 1) s g = givenFrom n t (g.afterStep s) := by
  simp only [givenFrom, h]

/-- One step past a run adds that step's part, or nothing where the step stops. -/
theorem givenFrom_succ_cases {n : Nat} {s t : State} (g : Given) (h : runSteps n s = .next t) :
    givenFrom (n + 1) s g = (givenFrom n s g).afterStep t ∨ givenFrom (n + 1) s g = givenFrom n s g := by
  induction n generalizing s g with
  | zero =>
    obtain rfl : s = t := Host.Outcome.next.inj h
    cases hs : step s with
    | next u => exact .inl (givenFrom_of_step g hs)
    | fault | refused => exact .inr (by simp only [givenFrom, hs])
  | succ n ih =>
    obtain ⟨u, hu, hrun⟩ := runSteps_succ_eq_next h
    rw [givenFrom_of_step g hu, givenFrom_of_step g hu]
    exact ih _ hrun

section
variable (g : Given) {s : State}

theorem Given.afterStep_reset {d : ResetDraw} {later : List HostMove} (hport : s.port = .reset d :: later) :
    g.afterStep s = Given.nothing := by
  simp only [Given.afterStep, hport]

theorem Given.afterStep_submit {w : CmdWord} {i : Instr} {later : List HostMove} (hnofault : s.NoFault)
    (hport : s.port = .submit w :: later) (hd : decode w = .ok i) : g.afterStep s = g.afterCommand i s := by
  simp only [Given.afterStep, hport, hd, halted_eq_false_iff.2 hnofault, Bool.false_eq_true, if_false]

/-- A step that is no reset adds nothing, or one command's part. -/
theorem Given.afterStep_cases (hreset : ∀ d later, s.port ≠ .reset d :: later) :
    g.afterStep s = g ∨ ∃ i, g.afterStep s = g.afterCommand i s := by
  unfold Given.afterStep
  split
  · exact .inl rfl
  · next d later hport => exact absurd hport (hreset d later)
  · exact .inl rfl
  · split_ifs
    · exact .inl rfl
    · split
      · exact .inl rfl
      · next i _ => exact .inr ⟨i, rfl⟩

end

/-! ## A whole record stays whole -/

/-- Every byte of FB is given (R189's FbDefined, of the record itself). -/
def Memory.AllGiven (m : Memory) : Prop := ∀ a, a < fbSize → m.read a = 0xFF#8

section
variable {m : Memory} (hm : m.wf = true) (h : m.AllGiven)
include hm h

theorem Memory.AllGiven.giveBytes {a n : Nat} (hfits : a + n ≤ fbSize) : (giveBytes m a n).AllGiven := by
  intro b hb
  rw [read_giveBytes hfits hm, h b hb, ite_self]

theorem Memory.AllGiven.giveScroll : (giveScroll m).AllGiven := by
  intro b hb
  rw [read_giveScroll hm]
  split_ifs with hlast hlt
  · rfl
  · exact h _ (by simp only [lastRow, lineStride, fbSize] at hlt ⊢; omega)
  · exact absurd ⟨Nat.not_lt.1 hlt, hb⟩ hlast

/-- A plot writes a given byte given. -/
theorem Memory.AllGiven.write_set {a : Nat} (ha : a < fbSize) (k : Nat) :
    (m.write a (pixelOp (m.read a) k .set)).AllGiven := by
  intro b hb
  rw [Memory.read_write hm, h a ha, h b hb]
  have hones : pixelOp 0xFF#8 k .set = 0xFF#8 := BitVec.allOnes_or
  rw [hones, ite_self]

theorem Memory.AllGiven.givePlot (x y : Nat) (mode : Mode) : (givePlot x y mode m).AllGiven := by
  cases mode with
  | set | clear => exact h.write_set hm (plotAddr_lt x y) _
  | toggle => exact h

theorem Memory.AllGiven.giveGlyph (s : State) : (giveGlyph s m).AllGiven := by
  obtain hle | hend | hoob := cursor_cases s.cursor
  · rw [giveGlyph_of_le m hle]
    exact h.giveBytes hm (by simp only [glyphBytes, fbSize]; omega)
  · rw [giveGlyph_of_end m hend]
    exact (h.giveScroll hm).giveBytes (wf_giveScroll hm) (by decide)
  · rwa [giveGlyph_of_oob m hoob]

end

theorem Memory.AllGiven.givePlots (ps : List (Int × Int)) (mode : Mode) {m : Memory} (hm : m.wf = true)
    (h : m.AllGiven) : (ps.foldl (fun m p => Machine.givePlot p.1.toNat p.2.toNat mode m) m).AllGiven := by
  induction ps generalizing m with
  | nil => exact h
  | cons p ps ih => exact ih (wf_givePlot _ _ mode hm) (h.givePlot hm _ _ mode)

theorem Given.allGiven_afterCommand {g : Given} (i : Instr) (s : State) (hg : g.fb.wf = true) (h : g.fb.AllGiven) :
    (g.afterCommand i s).fb.AllGiven := by
  cases i with
  | setPixel x y mode => exact h.givePlot hg _ _ mode
  | writeChar => exact h.giveGlyph hg s
  | scroll => exact h.giveScroll hg
  | clear => exact fun _ => read_giveAll
  | drawLine x0 y0 x1 y1 mode => exact h.givePlots _ mode hg
  | getPixel | setCursor | sendCmd | sendData | refresh | setBrightness | sleep | wake | turnOff | turnOn | init =>
    exact h

/-- Where SCROLL leaves CURSOR alone, no command takes a given CURSOR back. -/
theorem Given.cursor_afterCommand {g : Given} (i : Instr) {s : State} (hs : s.cfg.scrollCursor = .unchanged)
    (h : g.cursor = true) : (g.afterCommand i s).cursor = true := by
  cases i with
  | scroll => simp [Given.afterCommand, hs, h]
  | setCursor | clear => rfl
  | setPixel | getPixel | writeChar | drawLine | sendCmd | sendData | refresh | setBrightness | sleep | wake | turnOff
  | turnOn | init => exact h

/-! ## Two memories that agree on the bits given -/

/-- `m` and `m'` agree on the bits that are 1 in `g`; all three are canonical. -/
structure AgreeOn (g m m' : Memory) : Prop where
  wfGiven : g.wf = true
  wfLeft : m.wf = true
  wfRight : m'.wf = true
  agree : ∀ a, m.read a &&& g.read a = m'.read a &&& g.read a

theorem pixelOp_and_pixelOp_set {v v' w : Byte} (k : Nat) {mode : Mode} (hmode : mode ≠ .toggle)
    (h : v &&& w = v' &&& w) :
    pixelOp v k mode &&& pixelOp w k .set = pixelOp v' k mode &&& pixelOp w k .set := by
  refine BitVec.eq_of_getLsbD_eq fun j hj => ?_
  have hbit := congrArg (BitVec.getLsbD · j) h
  simp only [BitVec.getLsbD_and, getLsbD_pixelOp _ _ hj] at hbit ⊢
  split_ifs
  · cases mode with
    | set | clear => rfl
    | toggle => exact absurd rfl hmode
  · exact hbit

theorem pixelOp_toggle_and {v v' w : Byte} (k : Nat) (h : v &&& w = v' &&& w) :
    pixelOp v k .toggle &&& w = pixelOp v' k .toggle &&& w := by
  refine BitVec.eq_of_getLsbD_eq fun j _ => ?_
  have hbit := congrArg (BitVec.getLsbD · j) h
  simp only [BitVec.getLsbD_and] at hbit
  simp only [pixelOp, BitVec.getLsbD_and, BitVec.getLsbD_xor, Bool.and_xor_distrib_right, hbit]

section
variable {g m m' : Memory} (h : AgreeOn g m m')
include h

/-- Bytes that agree on a mask are written with it. -/
theorem AgreeOn.write {a : Nat} (ha : a < fbSize) {v v' w : Byte} (hv : v &&& w = v' &&& w) :
    AgreeOn (g.write a w) (m.write a v) (m'.write a v') where
  wfGiven := Memory.wf_write w ha h.wfGiven
  wfLeft := Memory.wf_write v ha h.wfLeft
  wfRight := Memory.wf_write v' ha h.wfRight
  agree b := by
    rw [Memory.read_write h.wfGiven, Memory.read_write h.wfLeft, Memory.read_write h.wfRight]
    split_ifs
    · exact hv
    · exact h.agree b

/-- Equal bytes are written, and given whole. -/
theorem AgreeOn.writeBytes {a : Nat} {bs : List Byte} (hfits : a + bs.length ≤ fbSize) :
    AgreeOn (giveBytes g a bs.length) (m.writeBytes a bs) (m'.writeBytes a bs) := by
  rw [giveBytes]
  induction bs generalizing g m m' a with
  | nil => exact h
  | cons b bs ih =>
    simp only [List.length_cons] at hfits
    exact ih (h.write (by omega) rfl) (by omega)

theorem AgreeOn.writeGlyph {a : Nat} (ha : a ≤ 1016) (cfg : Config) (code : Byte) :
    AgreeOn (giveBytes g a glyphBytes) (m.writeBytes a (glyphRead cfg code))
      (m'.writeBytes a (glyphRead cfg code)) := by
  have hlength : (glyphRead cfg code).length = glyphBytes := length_glyphRead cfg code
  rw [← hlength]
  exact h.writeBytes (by rw [hlength]; simp only [glyphBytes, fbSize]; omega)

theorem AgreeOn.scroll : AgreeOn (giveScroll g) m.scroll m'.scroll where
  wfGiven := wf_giveScroll h.wfGiven
  wfLeft := Memory.wf_scroll h.wfLeft
  wfRight := Memory.wf_scroll h.wfRight
  agree a := by
    rw [Memory.read_scroll, Memory.read_scroll]
    by_cases ha : a < lastRow
    · have hgiven : (giveScroll g).read a = g.read (a + lineStride) := by
        rw [read_giveScroll h.wfGiven, if_neg (fun hlast => Nat.not_lt.2 hlast.1 ha), if_pos ha]
      rw [if_pos ha, if_pos ha, hgiven]
      exact h.agree _
    · rw [if_neg ha, if_neg ha]

end

section
variable {g : Memory} {s s' t t' : State} (h : AgreeOn g s.fb s'.fb)
include h

/-- Set and Clear give the bit they write; Toggle gives nothing, and inverts a given bit alike on both sides. -/
theorem AgreeOn.plot (x y : Nat) (mode : Mode) :
    AgreeOn (givePlot x y mode g) (plot x y mode s).fb (plot x y mode s').fb := by
  have ha := plotAddr_lt x y
  cases mode with
  | set => exact h.write ha (pixelOp_and_pixelOp_set _ (by decide) (h.agree _))
  | clear => exact h.write ha (pixelOp_and_pixelOp_set _ (by decide) (h.agree _))
  | toggle =>
    have hwrite := h.write ha (pixelOp_toggle_and (pixBit (wrapY y)) (h.agree (plotAddr x y)))
    rwa [Memory.write_read_self h.wfGiven ha] at hwrite

theorem AgreeOn.plots (ps : List (Int × Int)) (mode : Mode) :
    AgreeOn (ps.foldl (fun m p => givePlot p.1.toNat p.2.toNat mode m) g)
      (ps.foldl (fun u p => Machine.plot p.1.toNat p.2.toNat mode u) s).fb
      (ps.foldl (fun u p => Machine.plot p.1.toNat p.2.toNat mode u) s').fb := by
  induction ps generalizing g s s' with
  | nil => exact h
  | cons p ps ih => exact ih (h.plot _ _ mode)

theorem AgreeOn.writeChar {code : Byte} {noadv : Bool} (hcfg : s.cfg = s'.cfg) (hcursor : s.cursor = s'.cursor)
    (ht : exec (.writeChar code noadv) s = .next t) (ht' : exec (.writeChar code noadv) s' = .next t') :
    AgreeOn (giveGlyph s g) t.fb t'.fb := by
  obtain hle | hend | hoob := cursor_cases s.cursor
  · rw [exec_writeChar_of_le _ _ hle] at ht
    rw [exec_writeChar_of_le _ _ (hcursor ▸ hle), ← hcfg, ← hcursor] at ht'
    obtain rfl := Host.Outcome.next.inj ht
    obtain rfl := Host.Outcome.next.inj ht'
    rw [giveGlyph_of_le g hle]
    exact h.writeGlyph hle s.cfg code
  · rw [exec_writeChar_of_end _ _ hend] at ht
    rw [exec_writeChar_of_end _ _ (hcursor ▸ hend), ← hcfg] at ht'
    obtain rfl := Host.Outcome.next.inj ht
    obtain rfl := Host.Outcome.next.inj ht'
    rw [giveGlyph_of_end g hend]
    exact h.scroll.writeGlyph (by decide) s.cfg code
  · rw [exec_writeChar_of_oob _ _ hoob] at ht
    rw [exec_writeChar_of_oob _ _ (hcursor ▸ hoob)] at ht'
    obtain rfl := Host.Outcome.next.inj ht
    obtain rfl := Host.Outcome.next.inj ht'
    rwa [giveGlyph_of_oob g hoob]

end

/-- A command that completes from both states leaves FB agreeing on the bits given then. -/
theorem AgreeOn.exec {i : Instr} {g : Given} {s s' t t' : State} (h : AgreeOn g.fb s.fb s'.fb) (hcfg : s.cfg = s'.cfg)
    (hcursor : s.cursor = s'.cursor) (ht : exec i s = .next t) (ht' : exec i s' = .next t') :
    AgreeOn (g.afterCommand i s).fb t.fb t'.fb := by
  cases i with
  | setPixel x y mode =>
    obtain rfl := Host.Outcome.next.inj ht
    obtain rfl := Host.Outcome.next.inj ht'
    exact h.plot _ _ mode
  | writeChar => exact h.writeChar hcfg hcursor ht ht'
  | scroll =>
    obtain ⟨_, rfl, -⟩ := execScroll_frame ht
    obtain ⟨_, rfl, -⟩ := execScroll_frame ht'
    exact h.scroll
  | clear =>
    obtain rfl := Host.Outcome.next.inj ht
    obtain rfl := Host.Outcome.next.inj ht'
    exact ⟨wf_giveAll, Memory.wf_zeros, Memory.wf_zeros, fun _ => rfl⟩
  | drawLine x0 y0 x1 y1 mode =>
    rw [drawLinePlotsItsPoints] at ht ht'
    obtain rfl := Host.Outcome.next.inj ht
    obtain rfl := Host.Outcome.next.inj ht'
    exact h.plots _ mode
  | getPixel | setCursor | sendCmd | sendData | refresh | setBrightness | sleep | wake | turnOff | turnOn | init =>
    rw [exec_fb ht (by simp [opcodeOfInstr]), exec_fb ht' (by simp [opcodeOfInstr])]
    exact h

/-- CURSOR after a command follows from CURSOR and the configuration before it. -/
theorem exec_cursor_congr {i : Instr} {s s' t t' : State} (hcfg : s.cfg = s'.cfg) (hcursor : s.cursor = s'.cursor)
    (ht : exec i s = .next t) (ht' : exec i s' = .next t') : t.cursor = t'.cursor := by
  cases i with
  | writeChar code noadv =>
    obtain hle | hend | hoob := cursor_cases s.cursor
    · rw [exec_writeChar_of_le _ _ hle] at ht
      rw [exec_writeChar_of_le _ _ (hcursor ▸ hle), ← hcursor] at ht'
      exact Host.Outcome.next.inj ht ▸ Host.Outcome.next.inj ht' ▸ rfl
    · rw [exec_writeChar_of_end _ _ hend] at ht
      rw [exec_writeChar_of_end _ _ (hcursor ▸ hend)] at ht'
      exact Host.Outcome.next.inj ht ▸ Host.Outcome.next.inj ht' ▸ rfl
    · rw [exec_writeChar_of_oob _ _ hoob] at ht
      rw [exec_writeChar_of_oob _ _ (hcursor ▸ hoob)] at ht'
      exact Host.Outcome.next.inj ht ▸ Host.Outcome.next.inj ht' ▸ hcursor
  | scroll =>
    obtain rfl := Host.Outcome.next.inj ht
    obtain rfl := Host.Outcome.next.inj ht'
    rw [← hcfg]
    cases s.cfg.scrollCursor with
    | unchanged => exact hcursor
    | lastRow => rfl
  | setCursor | clear => exact Host.Outcome.next.inj ht ▸ Host.Outcome.next.inj ht' ▸ rfl
  | setPixel | getPixel | drawLine | sendCmd | sendData | refresh | setBrightness | sleep | wake | turnOff | turnOn
  | init =>
    rw [exec_cursor ht (by simp [opcodeOfInstr]) (by simp), exec_cursor ht' (by simp [opcodeOfInstr]) (by simp)]
    exact hcursor

end Sys2Proof.Machine

open Sys2Proof Sys2Proof.Machine

/-- Settles O24: a reset's record is empty, SETCURSOR's gives CURSOR, and any other step adds nothing or one command's
part, which takes nothing back but CURSOR under LastRow. -/
theorem definedLastsUntilReset : Obligations.DefinedLastsUntilReset := by
  intro n s t hrun hidle
  refine ⟨fun d later hport => ?_, fun row column later hnofault hport => ?_, fun hreset => ?_⟩
  · have hgiven : givenAfter (n + 1) s = Given.nothing :=
      (givenFrom_succ _ hrun (step_eq_serveMove hidle hport)).trans (Given.afterStep_reset _ hport)
    refine ⟨fun hfb => ?_, fun hcursor => ?_⟩
    · have hzero := hfb 0 (by decide)
      rw [hgiven] at hzero
      exact absurd hzero (by decide)
    · rw [CursorDefined, hgiven] at hcursor
      exact absurd hcursor (by decide)
  · have hd := decodeAfterEncode (.setCursor row column) (Instr.wellFormed_eq _)
    have hstep := (step_eq_serveMove hidle hport).trans (submitWord_of_decode_ok hnofault hd)
    have hgiven := (givenFrom_succ Given.nothing hrun hstep).trans (Given.afterStep_submit _ hnofault hport hd)
    exact congrArg Given.cursor hgiven
  · have hcases : givenAfter (n + 1) s = givenAfter n s ∨
        ∃ i, givenAfter (n + 1) s = (givenAfter n s).afterCommand i t := by
      obtain hadd | hstop := givenFrom_succ_cases Given.nothing hrun
      · rw [givenAfter, hadd]
        exact Given.afterStep_cases _ hreset
      · exact .inl hstop
    obtain hsame | ⟨i, hadd⟩ := hcases
    · exact ⟨fun hfb => by rwa [FbDefined, hsame], fun _ hcursor => by rwa [CursorDefined, hsame]⟩
    · have hwf : (givenAfter n s).fb.wf = true := wf_givenFrom n s Given.nothing Memory.wf_zeros
      refine ⟨fun hfb => ?_, fun hscroll hcursor => ?_⟩
      · rw [FbDefined, hadd]
        exact Given.allGiven_afterCommand i t hwf hfb
      · rw [CursorDefined, hadd]
        exact Given.cursor_afterCommand i hscroll hcursor

/-- Settles O25: agreement on the given bits of FB is kept by each operation on FB, and CURSOR does not depend on FB. -/
theorem givenBitsAreTheProgramsOwn : Obligations.GivenBitsAreTheProgramsOwn := by
  intro i g s s' t t' hg hs hs' hcfg hcursor hagree ht ht'
  have hfb : AgreeOn g.fb s.fb s'.fb := ⟨hg, hs, hs', hagree⟩
  exact ⟨exec_cursor_congr hcfg hcursor ht ht', (hfb.exec hcfg hcursor ht ht').agree⟩

end

section
/-! SUPPORT. Reset (spec/70_reset_and_hazards.md R190 to R193): what it leaves where the draw decides, and a run of one
reset and one CLEAR. -/

namespace Sys2Proof.Machine

/-- A reset finds its storage unless its draw says otherwise (R192). -/
theorem resetFault_of_not_allocFails (cfg : Config) {d : ResetDraw} (h : d.allocFails = false) :
    resetFault cfg d = 0x00#8 := by
  rw [resetFault, h, Bool.and_false]
  rfl

/-- FB after a reset reads as drawn (R190). -/
theorem read_takeReset (d : ResetDraw) (s : State) (a : Fin 1024) : (takeReset d s).fb.read a.val = d.fb[a] := by
  have hread := Memory.read_ofBytes (bs := d.fb.toList) 0 a.val (by simp)
  rwa [Nat.zero_add, Vector.getElem_toList] at hread

/-- A CLEAR at the port of an idle FBC that is not halted is executed (R87, R187). -/
theorem step_clear {s : State} {later : List HostMove} (hidle : s.Idle) (hnofault : s.NoFault)
    (hport : s.port = .submit (encode .clear) :: later) :
    step s = .next (answerOutcome (((s.withPort later).withFb Memory.zeros).withCursor 0#16)) :=
  (step_eq_serveMove hidle hport).trans
    (submitWord_of_decode_ok (s := s.withPort later) hnofault (decode_encode .clear))

/-- A run after a reset serves the reset first, then the words. -/
theorem runAfterReset_eq_next {d : ResetDraw} {words : List CmdWord} {s t : State}
    (h : runAfterReset d words s = .next t) :
    runSteps words.length (takeReset d (s.withPort (words.map .submit))) = .next t := by
  obtain ⟨u, hu, hrun⟩ := runSteps_succ_eq_next h
  obtain ⟨hnone, -⟩ | ⟨move, later, hport, -, hmove⟩ := step_eq_next_cases hu
  · exact absurd hnone (List.cons_ne_nil _ _)
  · obtain ⟨rfl, rfl⟩ := List.cons.inj hport
    obtain rfl := Host.Outcome.next.inj hmove
    exact hrun

/-- After a reset that found its storage, a CLEAR leaves nothing of the draw in FB and CURSOR (R193). -/
theorem runAfterReset_clear {d : ResetDraw} {s t : State} (hd : d.allocFails = false)
    (h : runAfterReset d [encode .clear] s = .next t) : t.fb = Memory.zeros ∧ t.cursor = 0#16 := by
  obtain ⟨u, hu, hrun⟩ := runSteps_succ_eq_next (runAfterReset_eq_next h)
  rw [step_clear rfl (resetFault_of_not_allocFails _ hd) rfl] at hu
  obtain rfl := Host.Outcome.next.inj hu
  obtain rfl := Host.Outcome.next.inj hrun
  exact ⟨rfl, rfl⟩

end Sys2Proof.Machine

open Sys2Proof Sys2Proof.Machine

/-- Settles O23: CLEAR's part of the record is all of FB and CURSOR, and what it writes does not depend on the draw. -/
theorem clearDefinesFbAndCursor : Obligations.ClearDefinesFbAndCursor := by
  refine ⟨fun n s t later hrun hidle hnofault hport => ?_, fun s t t' d d' hd hd' ht ht' => ?_,
    fun s t t' d d' hd hd' ht ht' => ?_⟩
  · have hgiven : givenAfter (n + 1) s = { fb := giveAll, cursor := true } :=
      (givenFrom_succ _ hrun (step_clear hidle hnofault hport)).trans
        (Given.afterStep_submit _ hnofault hport (decode_encode .clear))
    refine ⟨fun a ha => ?_, ?_⟩
    · rw [hgiven]
      exact read_giveAll ha
    · rw [CursorDefined, hgiven]
  · exact (runAfterReset_clear hd ht).1.trans (runAfterReset_clear hd' ht').1.symm
  · exact (runAfterReset_clear hd ht).2.trans (runAfterReset_clear hd' ht').2.symm

/-- Settles O49: the next state is `takeReset`'s, whose FB is the memory of the drawn bytes. -/
theorem resetTakesTheDraw : Obligations.ResetTakesTheDraw := by
  intro s d later hidle hport
  exact ⟨takeReset d (s.withPort later), step_eq_serveMove hidle hport, (takeReset_inv d _).fbCanonical,
    read_takeReset d _, rfl, rfl, rfl, rfl, rfl, rfl, rfl, rfl, rfl, rfl⟩

/-- Settles O52: State.reset's values, and DEV_ADDR's bit 0, which is 0 in every configuration (R136). -/
theorem resetMeetsTheInvariant : Obligations.ResetMeetsTheInvariant := by
  have hinv : State.reset.Inv := {
    fbCanonical := Memory.wf_zeros
    resultBit := .inl rfl
    faultCode := Nat.zero_le 5
    faultCmdZero := fun _ => rfl
    allocAllowed := fun h => absurd h (by decide)
    idle := rfl
    payloadIndex := Nat.zero_le _ }
  exact ⟨hinv, rfl, rfl, rfl, rfl, rfl, rfl, rfl, rfl, writeAddress _⟩

end
